-- ==== Sys2Proof/Word.lean ====
section
/-! DEFINITION. The word types of the celestep8 decompression engine. Every memory of the engine is byte wide
(spec R85); the register port is 32 bits wide (spec R32). -/

namespace Sys2Proof

/-- One byte of the stream, the output buffer or the lookup table (spec R13, R85). -/
abbrev Byte := BitVec 8

/-- One word of the register port (spec R32, R33). -/
abbrev Word := BitVec 32

end Sys2Proof
end

