-- ==== Sys2Proof/Config.lean ====
section
/-! DEFINITION. What an implementation fixes (the OPEN parameters of spec R11) and the free values: bytes the spec
leaves unspecified. Each is an opaque constant without a body, so no proof can see its value. -/

namespace Sys2Proof

/-- `LUT_TABLE`, the 60 bytes of the lookup table (spec R51, decision D4, U1): an OPEN parameter. Log entry 4. -/
opaque Config.lutTable : Fin 60 → Byte

/-- The number from which `STREAM_CAP` is made. Log entry 1. -/
opaque Config.streamCapChoice : Nat

/-- `STREAM_CAP`, the number of bytes of the stream memory (spec R11, decision D2, U2): an OPEN parameter, at least 8.
It is below 2^32 because `STREAM_LEN` holds it and stands in one 32-bit word of the register port (DEDUCED from R11 and
R32). Every number from 8 to 2^32 - 1 is the value for some choice. Log entry 1. -/
def Config.streamCap : Nat := max 8 (min Config.streamCapChoice (2 ^ 32 - 1))

/-- `W_CUR`, the width of `CURSOR` and `STREAM_LEN`: the least w with 2^w > `STREAM_CAP` (spec R11). -/
def Config.wCur : Nat := Nat.size Config.streamCap

/-- By how many bytes `OUT_CAP` exceeds the least capacity the spec admits. Log entry 3. -/
opaque Config.outCapExtra : Nat

/-- `OUT_CAP`, the number of bytes of the output buffer (spec R11, R12, decision D3, U3). A configuration below 65551
is refused by spec R12: no value of `outCapExtra` gives one. There is no upper bound: the spec gives `OUT_CAP` a lower bound
only (R11, R12, D3), while R81 makes addresses of O 17 bits wide, so that a capacity beyond 2^17 is a DESIGN CHOICE of the
model. Log entry 3. -/
def Config.outCap : Nat := Config.outCapExtra + 65551

/-- FREE VALUE. The byte of the output buffer at an address that holds no output of this decode (spec R100, R95, R58;
U4 and U7: any value). The first argument is `State.outEpoch`, the second the address. Log entry 5. -/
opaque Config.unspecifiedOut : Nat → Nat → Byte

/-- FREE VALUE. The byte of the stream memory at an address the host has not written. The spec gives the stream memory
no contents before the host writes it (R54, R58). Log entry 6. -/
opaque Config.unwrittenStream : Nat → Byte

end Sys2Proof
end

