-- ==== Sys2Proof/Syntax.lean ====
section
/-! DEFINITION. The engine's whole instruction set (spec R3): one constructor for each row of the opcode table. -/

namespace Sys2Proof

/-- An instruction of the stream with its assembled operands (spec R3, R118, R125). -/
inductive Instr where
  /-- `LIT v`, literal escape: the operand is the whole second byte (spec R113, R118). -/
  | lit (v : Byte)
  /-- `LUT i`, table lookup: the operand is the opcode byte itself, an index of the 60-entry table (spec R114, R118). -/
  | lut (i : Fin 60)
  /-- `COPY offset, length`, back-reference: a 12-bit offset and a 5-bit length (spec R115, R116, R117, R238). -/
  | copy (offset : BitVec 12) (length : BitVec 5)
deriving DecidableEq, Repr

end Sys2Proof
end

