-- ==== Sys2Proof/WellFormed.lean ====
section
/-! DEFINITION. Which operand values an encoding exists for (spec R114, R116, R117, R121). -/

namespace Sys2Proof

/-- An instruction that some encoding stands for. `LIT` takes every byte (spec R113). `LUT` takes 1 to 59, because
index 0 is the literal escape's opcode (spec R114, R121). `COPY` takes offsets 0 to 3135 (spec R116) and lengths 2 to 17
(spec R117). -/
def Instr.wellFormed : Instr → Bool
  | .lit _ => true
  | .lut i => decide (i.val ≠ 0)
  | .copy offset length =>
      decide (offset.toNat ≤ 3135) && decide (2 ≤ length.toNat) && decide (length.toNat ≤ 17)

end Sys2Proof
end

