-- ==== Sys2Proof/Decode.lean ====
section
/-! DEFINITION. The decoder (spec section 30_encoding.md) and, after it, the encoder. -/

namespace Sys2Proof

/-- Why a list of bytes holds no whole instruction. No opcode is illegal and no next byte is (spec R120), so running
out of bytes is the only ground. -/
inductive DecodeError where
  /-- There is no opcode byte. -/
  | noOpcodeByte
  /-- A 2-byte instruction without its second byte (spec R112, R272). -/
  | truncated (opcode : Byte)
deriving DecidableEq, Repr

/-- The length of an instruction in bytes, which its opcode byte alone fixes (spec R112). -/
def instrLength (b : Byte) : Nat :=
  if b.toNat = 0x00 then 2 else if b.toNat ≤ 0x3B then 1 else 2

/-- The 12-bit offset field of a `COPY`: (b - 0x3C) * 16 + (n & 0x0F) (spec R116). The address generator forms it by
shifting the 8-bit difference left 4 and or'ing in the low nibble (spec R238). -/
def copyOffsetField (b n : Byte) : BitVec 12 :=
  (b - 0x3C#8).setWidth 12 <<< 4 ||| (n &&& 0x0F#8).setWidth 12

/-- The 5-bit length field of a `COPY`: (n >> 4) + 2 (spec R117, R238). -/
def copyLengthField (n : Byte) : BitVec 5 := (n >>> 4).setWidth 5 + 2#5

/-- The instruction that the opcode byte `b` selects, with `n` as the next byte where it takes one (spec R119). Total:
the three ranges cover all 256 opcode bytes (spec R120). -/
def decodeOp (b n : Byte) : Instr :=
  if b.toNat = 0x00 then .lit n
  else if h : b.toNat < 60 then .lut ⟨b.toNat, h⟩
  else .copy (copyOffsetField b n) (copyLengthField n)

/-- Reads one instruction from the front of a list of bytes and gives back the rest (spec R112, R126). -/
def decode : List Byte → Except DecodeError (Instr × List Byte)
  | [] => .error .noOpcodeByte
  | b :: rest =>
      if instrLength b = 1 then .ok (decodeOp b 0#8, rest)
      else match rest with
        | [] => .error (.truncated b)
        | n :: rest' => .ok (decodeOp b n, rest')

/-- The opcode byte of an instruction (spec R113, R114, R122). -/
def Instr.opcodeByte : Instr → Byte
  | .lit _ => 0x00#8
  | .lut i => BitVec.ofNat 8 i.val
  | .copy offset _ => 0x3C#8 + (offset >>> 4).setWidth 8

/-- The next byte of a 2-byte instruction (spec R113, R122), 0 for `LUT`, which has none (spec R114). -/
def Instr.nextByte : Instr → Byte
  | .lit v => v
  | .lut _ => 0#8
  | .copy offset length => (length - 2#5).setWidth 8 <<< 4 ||| (offset &&& 0x00F#12).setWidth 8

/-- The bytes of a well-formed instruction (spec R113, R114, R122). The engine never encodes (spec R8). -/
def encode : Instr → List Byte
  | .lit v => [(Instr.lit v).opcodeByte, v]
  | .lut i => [(Instr.lut i).opcodeByte]
  | .copy offset length => [(Instr.copy offset length).opcodeByte, (Instr.copy offset length).nextByte]

/-- The bytes at CURSOR and CURSOR+1 of an instruction given as a number of the opcode table. A row's pattern is ONE
number of `nbits` bits whose leftmost 8 bits are byte 0, the opcode byte (the table's byte_order_of_pattern, match and
mask; its fixed bits 15..8 of `LIT` are the opcode byte). Bytes the table gives no bits are 0. Log entry 11. -/
def tableWordBytes (nbits w : Nat) : Byte × Byte :=
  if nbits ≤ 8 then (BitVec.ofNat 8 w, 0#8) else (BitVec.ofNat 8 (w / 256), BitVec.ofNat 8 w)

/-- The instruction the decoder reads from an instruction given as a number of the opcode table. Log entry 11. -/
def decodeTableWord (nbits w : Nat) : Option Instr :=
  match decode [(tableWordBytes nbits w).1, (tableWordBytes nbits w).2] with
  | .ok (i, _) => some i
  | .error _ => none

end Sys2Proof
end

