-- ==== Sys2Proof/Machine/State.lean ====
section
/-! DEFINITION. The state of the machine: every register of the register map (spec R32), the stream memory and the output
buffer (R53, R54), the trace port (R260, R261), and the moves waiting at its inputs. -/

namespace Sys2Proof.Machine

/-- A byte memory: (address, byte) pairs with strictly rising addresses. An unlisted address reads as no value
(`Memory.lookup` answers `none`), so no listed entry can equal what an unlisted address reads as. -/
abbrev Memory := List Host.Cell

/-- The options of `CTRL` (spec R35). `START` is no storage: it reads 0. -/
structure Ctrl where
  strict : Bool
  trim : Bool
  limitEn : Bool
deriving DecidableEq, Repr

/-- `STATUS.STATE` (spec R40). -/
inductive EngineState where
  | idle
  | busy
  | done
  | error
deriving DecidableEq, Repr

/-- `STATUS.TERM` (spec R40, R41). -/
inductive Term where
  | none
  | lengthReached
  | inputExhausted
  | limitReached
  | error
deriving DecidableEq, Repr

/-- `STATUS.ERR` (spec R40, R270). -/
inductive Err where
  | none
  | headerTruncated
  | truncatedInstruction
  | invalidBackReference
  | markerMismatch
  | reservedNonzero
deriving DecidableEq, Repr

/-- `STATUS` (spec R40). Only the engine writes it; its reserved bits are always 0 and have no storage. -/
structure Status where
  state : EngineState
  term : Term
  err : Err
  warnMarker : Bool
  warnResv : Bool
deriving DecidableEq, Repr

/-- `FAULT` (spec R50): the instruction bits of the instruction that raised an error. -/
structure FaultInfo where
  op : Byte
  next : Byte
  nextValid : Bool
deriving DecidableEq, Repr

/-- `t_kind` of an instruction record (spec R260). -/
inductive InsnKind where
  | lit
  | lut
  | copy
deriving DecidableEq, Repr

/-- The instruction record of the trace port (spec R260). -/
structure InsnRecord where
  kind : InsnKind
  cursor : Word
  op : Byte
  next : Byte
  offset : BitVec 12
  length : BitVec 5
  fragStart : BitVec 17
  fragLen : BitVec 5
deriving DecidableEq, Repr

/-- The terminal record of the trace port (spec R261). -/
structure TermRecord where
  term : Term
  err : Err
  cursor : Word
  outLen : BitVec 17
  insnCount : BitVec 16
  fault : FaultInfo
deriving DecidableEq, Repr

/-- What the trace port presents: an instruction record (`trace_valid` = 1) or a terminal record (`trace_end` = 1)
(spec R260, R261). -/
inductive TraceRecord where
  | insn (r : InsnRecord)
  | terminal (r : TermRecord)
deriving DecidableEq, Repr

/-- One access of the host (spec R30, R33, R54, R95). A register-port access names its byte offset and its width in
bytes, so that an access of another width or at a misaligned offset can be refused by name. -/
inductive HostOp where
  | portRead (offset width : Nat)
  | portWrite (offset width : Nat) (value : Word)
  | outRead (address : Nat)
  | outWrite (address : Nat) (value : Byte)
  | streamWrite (address : Nat) (value : Byte)
deriving DecidableEq, Repr

/-- One move waiting at the machine's inputs: the engine's turn, an access of the host, or the reset input. Log 7. -/
inductive Input where
  | engine
  | host (op : HostOp)
  | rst
deriving DecidableEq, Repr

/-- What the host's latest read returned: a word of the register port (spec R33) or a byte of the window on the output
buffer (spec R95). Log 9. -/
inductive Reply where
  | word (w : Word)
  | byte (b : Byte)
deriving DecidableEq, Repr

/-- The whole machine. -/
structure State where
  /-- `CTRL`, offset 0x00 (spec R35). -/
  ctrl : Ctrl
  /-- `STATUS`, offset 0x04 (spec R40). -/
  status : Status
  /-- `STREAM_LEN`, offset 0x08 (spec R38): `W_CUR` bits, held in a word of the port. Log 2. -/
  streamLen : Word
  /-- `MAX_INSNS`, offset 0x0C (spec R39). -/
  maxInsns : BitVec 16
  /-- `DECL_LEN`, offset 0x10 (spec R44). -/
  declLen : BitVec 16
  /-- `MARKER`, offset 0x14 (spec R45). -/
  marker : Word
  /-- `RESV`, offset 0x18 (spec R46). -/
  resv : BitVec 16
  /-- `CURSOR`, offset 0x1C (spec R47), the program counter: `W_CUR` bits, held in a word of the port. Log 2. -/
  cursor : Word
  /-- `OUT_LEN`, offset 0x20 (spec R48). -/
  outLen : BitVec 17
  /-- `INSN_COUNT`, offset 0x24 (spec R49). -/
  insnCount : BitVec 16
  /-- `FAULT`, offset 0x28 (spec R50). -/
  faultReg : FaultInfo
  /-- The stream memory S (spec R54). -/
  stream : Memory
  /-- The output buffer O (spec R53). -/
  out : Memory
  /-- START has been taken and its header parse has not (spec R150, the HDR state of R200). Log 8. -/
  hdrPending : Bool
  /-- What the trace port presents after the latest step (spec R260, R261). Log 10. -/
  trace : Option TraceRecord
  /-- The MODEL's own: the moves waiting at the inputs, in order; when none waits the engine moves. Log 7. -/
  inputs : List Input
  /-- The MODEL's own: what the host's latest read returned. Log 9. -/
  reply : Option Reply
  /-- The MODEL's own: counts STARTs and resets; the free byte of the output buffer is applied to it. Log 5. -/
  outEpoch : Nat
deriving DecidableEq, Repr

/-- Why the machine stops with a fault. No run from reset meets `outputOverflow`. -/
inductive Fault where
  /-- Raised by the append of `LIT`, `LUT` and `COPY` at an address that is not below `OUT_CAP`. The spec has no such
  case: `OUT_LEN` cannot reach `OUT_CAP` (R12, R275). Safe: the model stops. Log 3. -/
  | outputOverflow
  /-- Raised by a host write of the stream memory at an address that is not below `STREAM_CAP`, which does not exist
  (spec R54, R80). Safe: the model stops. Log 13. -/
  | streamAddress
deriving DecidableEq, Repr

/-- Why the machine refuses a move. -/
inductive Refusal where
  /-- Raised by an arm of `exec` for an instruction without a meaning; no arm does. Safe. -/
  | notModelled (mnemonic : String)
  /-- Raised by a register-port access that is not 32 bits wide or not at a multiple of 4 (spec R33, U6). Safe: "a
  model refuses it". Log 14. -/
  | portAccess
  /-- Raised by a host write of the stream memory below `STREAM_LEN` while `STATUS.STATE` = BUSY, whose result the spec
  leaves unspecified (R106, U5). Safe: "a model gives the host no such move". Log 13. -/
  | streamWriteWhileBusy
deriving DecidableEq, Repr

/-- The machine right after reset (spec R58, R300): every register 0, IDLE, nothing on the trace port; nothing is known of
the memories. `inputs`, `reply` and `outEpoch` are the model's own (DESIGN CHOICE, logs 7, 9 and 5). -/
def State.reset : State where
  ctrl := ⟨false, false, false⟩
  status := ⟨.idle, .none, .none, false, false⟩
  streamLen := 0#32
  maxInsns := 0#16
  declLen := 0#16
  marker := 0#32
  resv := 0#16
  cursor := 0#32
  outLen := 0#17
  insnCount := 0#16
  faultReg := ⟨0#8, 0#8, false⟩
  stream := []
  out := []
  hdrPending := false
  trace := none
  inputs := []
  reply := none
  outEpoch := 0

end Sys2Proof.Machine
end

