-- ==== Sys2Proof/Machine/Ops.lean ====
section
/-! DEFINITION. The named operations over memories and registers: byte reads and writes, the fetch, the commit of an
instruction, the error halt and the termination. -/

namespace Sys2Proof.Machine

/-- The byte listed at an address; `none` where nothing is listed. -/
def Memory.lookup : Memory → Nat → Option Byte
  | [], _ => none
  | (a, v) :: m, x => if x = a then some v else Memory.lookup m x

/-- The memory with byte `v` at address `x`, every other address as before. -/
def Memory.write : Memory → Nat → Byte → Memory
  | [], x, v => [(x, v)]
  | (a, w) :: m, x, v =>
      if x < a then (x, v) :: (a, w) :: m
      else if x = a then (x, v) :: m
      else (a, w) :: Memory.write m x v

/-- Writes a list of bytes at rising addresses from `x` on, the first byte first (spec R236). -/
def Memory.writeBytes : Memory → Nat → List Byte → Memory
  | m, _, [] => m
  | m, x, v :: vs => Memory.writeBytes (Memory.write m x v) (x + 1) vs

/-- The canonical form of a memory: addresses strictly rising. (No entry can equal what an unlisted address reads as,
since that is no value.) -/
def Memory.wf : Memory → Bool
  | [] => true
  | [_] => true
  | (a, _) :: (b, w) :: m => decide (a < b) && Memory.wf ((b, w) :: m)

/-- `S[a]` (spec R15, R80). A byte the host has not written is a free value. Log 6. -/
def streamByte (s : State) (a : Nat) : Byte :=
  (Memory.lookup s.stream a).getD (Config.unwrittenStream a)

/-- `O[a]` (spec R15, R81). A byte no instruction has written is a free value. Log 5. -/
def outByte (s : State) (a : Nat) : Byte :=
  (Memory.lookup s.out a).getD (Config.unspecifiedOut s.outEpoch a)

/-- The decoded output `O[0 .. OUT_LEN)` (spec R48, R95). -/
def State.output (s : State) : List Byte := (List.range s.outLen.toNat).map (outByte s)

/-- Whether the byte at `CURSOR` + 1 lies in the stream (spec R210, R231, R272). -/
def hasNextByte (s : State) : Bool := decide (s.cursor.toNat + 1 < s.streamLen.toNat)

/-- The opcode byte `S[CURSOR]` (spec R180, R184). -/
def fetchOpcode (s : State) : Byte := streamByte s s.cursor.toNat

/-- The next byte `S[CURSOR+1]` where it lies in the stream. The engine reads no byte beyond (R38): there the operand is
0, and the meaning of a 2-byte instruction raises TRUNCATED_INSTRUCTION without using it. Log 16. -/
def fetchNext (s : State) : Byte :=
  if hasNextByte s then streamByte s (s.cursor.toNat + 1) else 0#8

/-- The instruction at `CURSOR` (spec R184). -/
def fetchInstr (s : State) : Instr := decodeOp (fetchOpcode s) (fetchNext s)

/-- The terminal record of the trace port for the registers of `s` (spec R261). -/
def termRecord (s : State) : TermRecord :=
  { term := s.status.term, err := s.status.err, cursor := s.cursor, outLen := s.outLen,
    insnCount := s.insnCount, fault := s.faultReg }

/-- The state with the terminal record of its own registers on the trace port (spec R261). -/
def presentTerminal (s : State) : State := { s with trace := some (.terminal (termRecord s)) }

/-- `terminate(T)` (spec R188): `STATUS.STATE` and `STATUS.TERM` only, and the terminal trace record. -/
def terminate (t : Term) (s : State) : State :=
  presentTerminal { s with status := { s.status with state := .done, term := t } }

/-- `raise E(info)`, the error halt (spec R276): `STATUS`, and `FAULT` for an instruction error; a header error gives no
info and leaves `FAULT` as it is (0 since START). Nothing else but the terminal trace record. -/
def raiseError (e : Err) (info : Option FaultInfo) (s : State) : State :=
  presentTerminal { s with
    status := { s.status with state := .error, term := .error, err := e }
    faultReg := info.getD s.faultReg }

/-- The registers a commit changes (spec R97): `OUT_LEN`, `CURSOR` and `INSN_COUNT` together, with the instruction's trace
record on the port (spec R260). -/
def commit (adv : Nat) (r : InsnRecord) (s : State) : State :=
  { s with
    outLen := s.outLen + r.fragLen.setWidth 17
    cursor := s.cursor + BitVec.ofNat 32 adv
    insnCount := s.insnCount + 1#16
    trace := some (.insn r) }

/-- Whether the first n addresses of the output buffer exist: n ≤ `OUT_CAP` (`fitsOut_iff`). `OUT_CAP` is at least 65551
(spec R12), so up to there the answer does not wait for the parameter. -/
def fitsOut (n : Nat) : Bool := decide (n ≤ 65551) || decide (n ≤ Config.outCap)

/-- Appends bytes at `OUT_LEN` and commits (spec R97, R195): the bytes are in O when the registers change. The append
stops where O ends, a case no run reaches (spec R12, R275). Log 3. -/
def appendCommit (bytes : List Byte) (adv : Nat) (r : InsnRecord) (s : State) :
    Host.Outcome State Fault Refusal :=
  if fitsOut (s.outLen.toNat + bytes.length) then
    .next (commit adv r { s with out := Memory.writeBytes s.out s.outLen.toNat bytes })
  else .fault .outputOverflow

end Sys2Proof.Machine
end

