-- ==== Sys2Proof/Machine/Operands.lean ====
section
/-! DEFINITION. Operand forms: the append-data multiplexer (spec R195) and the back-reference address generator
(spec R232 to R235, R238). -/

namespace Sys2Proof.Machine

/-- The three sources of the append-data multiplexer (spec R195). -/
inductive AppendSource where
  /-- The literal byte `S[CURSOR+1]` of `LIT`. -/
  | literal (v : Byte)
  /-- The table entry `LUT[i]` of `LUT`. -/
  | table (i : Fin 60)
  /-- The copy-source byte `O[start + i]` of `COPY`. -/
  | span (start : Nat)
deriving DecidableEq, Repr

/-- The byte the multiplexer selects for the i-th appended byte of an instruction (spec R195). -/
def appendData (s : State) : AppendSource → Nat → Byte
  | .literal v, _ => v
  | .table i, _ => Config.lutTable i
  | .span start, i => outByte s (start + i)

/-- The k bytes an instruction appends, each read from the state before the instruction (spec R195, R236). -/
def appendFragment (s : State) (src : AppendSource) (k : Nat) : List Byte :=
  (List.range k).map (appendData s src)

/-- `start` = `OUT_LEN` - offset, a mathematical integer that may be negative (spec R232). -/
def copyStart (s : State) (offset : BitVec 12) : Int := (s.outLen.toNat : Int) - (offset.toNat : Int)

/-- The validity check of `COPY`: start ≥ 0 and start + length ≤ `OUT_LEN` (spec R233). -/
def spanValid (s : State) (offset : BitVec 12) (length : BitVec 5) : Bool :=
  decide (0 ≤ copyStart s offset) &&
  decide (copyStart s offset + (length.toNat : Int) ≤ (s.outLen.toNat : Int))

/-- The number of bytes `COPY` appends: its length, or with `CTRL.TRIM` = 1 at most what `DECL_LEN` still lacks
(spec R235). -/
def copyCount (s : State) (length : BitVec 5) : Nat :=
  if s.ctrl.trim then min length.toNat (s.declLen.toNat - s.outLen.toNat) else length.toNat

/-- The address generator's decision as its datapath makes it (spec R238): `start` is an 18-bit two's-complement
difference, a borrow says it is negative, and a valid span has offset ≥ length and no borrow (spec R234). -/
def spanValidDatapath (s : State) (offset : BitVec 12) (length : BitVec 5) : Bool :=
  decide (length.toNat ≤ offset.toNat) &&
  !(s.outLen.setWidth 18 - offset.setWidth 18).msb

/-- What an error of an instruction records where it has no next byte (spec R212, R231). -/
def faultNoNext (i : Instr) : FaultInfo := ⟨i.opcodeByte, 0#8, false⟩

/-- What an error of an instruction records where it has read its next byte (spec R237). -/
def faultWithNext (i : Instr) : FaultInfo := ⟨i.opcodeByte, i.nextByte, true⟩

/-- The trace record of an instruction that commits, with k the number of bytes it appends (spec R260). -/
def insnRecord (s : State) (k : Nat) : Instr → InsnRecord
  | .lit v =>
      { kind := .lit, cursor := s.cursor, op := (Instr.lit v).opcodeByte, next := v, offset := 0#12, length := 0#5,
        fragStart := s.outLen, fragLen := BitVec.ofNat 5 k }
  | .lut i =>
      { kind := .lut, cursor := s.cursor, op := (Instr.lut i).opcodeByte, next := 0#8, offset := 0#12, length := 0#5,
        fragStart := s.outLen, fragLen := BitVec.ofNat 5 k }
  | .copy offset length =>
      { kind := .copy, cursor := s.cursor, op := (Instr.copy offset length).opcodeByte,
        next := (Instr.copy offset length).nextByte, offset := offset, length := length,
        fragStart := s.outLen, fragLen := BitVec.ofNat 5 k }

end Sys2Proof.Machine
end

