-- ==== Sys2Proof/Machine/BackReference.lean ====
section
/-! DEFINITION. The back-reference family: `COPY` (spec 44_back_reference.md). -/

namespace Sys2Proof.Machine

/-- `COPY offset, length` (spec R230): TRUNCATED_INSTRUCTION without a next byte (R231), checked before
INVALID_BACK_REFERENCE for a span that is not wholly in the output (R233, R278); else it appends k bytes of the output
(R235, R236) and advances the cursor by 2. -/
def execCopy (offset : BitVec 12) (length : BitVec 5) (s : State) : Host.Outcome State Fault Refusal :=
  if hasNextByte s then
    if spanValid s offset length then
      appendCommit (appendFragment s (.span (copyStart s offset).toNat) (copyCount s length)) 2
        (insnRecord s (copyCount s length) (.copy offset length)) s
    else .next (raiseError .invalidBackReference (some (faultWithNext (.copy offset length))) s)
  else .next (raiseError .truncatedInstruction (some (faultNoNext (.copy offset length))) s)

end Sys2Proof.Machine
end

