-- ==== Sys2Proof/Machine/Literal.lean ====
section
/-! DEFINITION. The literal escape family: `LIT` (spec 42_literal.md). -/

namespace Sys2Proof.Machine

/-- `LIT v` (spec R210): appends the next byte verbatim and advances the cursor by 2; TRUNCATED_INSTRUCTION when the
opcode byte is the last byte of the stream (spec R212). -/
def execLit (v : Byte) (s : State) : Host.Outcome State Fault Refusal :=
  if hasNextByte s then
    appendCommit (appendFragment s (.literal v) 1) 2 (insnRecord s 1 (.lit v)) s
  else .next (raiseError .truncatedInstruction (some (faultNoNext (.lit v))) s)

end Sys2Proof.Machine
end

