-- ==== Sys2Proof/Machine/TableLookup.lean ====
section
/-! DEFINITION. The table lookup family: `LUT` (spec 43_table_lookup.md). -/

namespace Sys2Proof.Machine

/-- `LUT i` (spec R220): appends the table's entry and advances the cursor by 1; it raises no error. -/
def execLut (i : Fin 60) (s : State) : Host.Outcome State Fault Refusal :=
  appendCommit (appendFragment s (.table i) 1) 1 (insnRecord s 1 (.lut i)) s

end Sys2Proof.Machine
end

