-- ==== Sys2Proof/Machine/Dispatch.lean ====
section
/-! DEFINITION. The dispatch of an instruction to its meaning (spec R184): one arm per constructor. -/

namespace Sys2Proof.Machine

/-- What an instruction does at a state where the loop step reaches it (spec R184, R185). -/
def exec (i : Instr) (s : State) : Host.Outcome State Fault Refusal :=
  match i with
  | .lit v => Sys2Proof.Machine.execLit v s
  | .lut index => Sys2Proof.Machine.execLut index s
  | .copy offset length => Sys2Proof.Machine.execCopy offset length s

end Sys2Proof.Machine
end

