-- ==== Sys2Proof/Machine/Flags.lean ====
section
/-! DEFINITION. Status: the warning flags of the header check (spec R154, R155), and how the host reads `STATUS`, `CTRL`,
`FAULT` and the `done` signal (spec R35, R40, R50, R55). The engine has no condition codes (spec R57). -/

namespace Sys2Proof.Machine

/-- The number of `STATUS.STATE` (spec R40). -/
def EngineState.code : EngineState → BitVec 2
  | .idle => 0#2
  | .busy => 1#2
  | .done => 2#2
  | .error => 3#2

/-- The number of `STATUS.TERM` (spec R40). -/
def Term.code : Term → BitVec 3
  | .none => 0#3
  | .lengthReached => 1#3
  | .inputExhausted => 2#3
  | .limitReached => 3#3
  | .error => 4#3

/-- The number of `STATUS.ERR` (spec R40, R270). -/
def Err.code : Err → BitVec 3
  | .none => 0#3
  | .headerTruncated => 1#3
  | .truncatedInstruction => 2#3
  | .invalidBackReference => 3#3
  | .markerMismatch => 4#3
  | .reservedNonzero => 5#3

/-- The number of `t_kind` (spec R260). -/
def InsnKind.code : InsnKind → BitVec 2
  | .lit => 0#2
  | .lut => 1#2
  | .copy => 2#2

/-- A flag as one bit of a register. -/
def flagBit (b : Bool) : BitVec 1 := BitVec.ofBool b

/-- `STATUS` as the host reads it (spec R40): bits 17 and 16 the warnings, 10:8 `ERR`, 4:2 `TERM`, 1:0 `STATE`, the rest
0. -/
def statusWord (st : Status) : Word :=
  0#14 ++ flagBit st.warnResv ++ flagBit st.warnMarker ++ 0#5 ++ st.err.code ++ 0#3 ++ st.term.code ++ st.state.code

/-- `CTRL` as the host reads it (spec R35): bits 3, 2, 1 the options, bit 0 (`START`) reads 0. -/
def ctrlWord (c : Ctrl) : Word :=
  0#28 ++ flagBit c.limitEn ++ flagBit c.trim ++ flagBit c.strict ++ 0#1

/-- `FAULT` as the host reads it (spec R50). -/
def faultWord (f : FaultInfo) : Word := 0#15 ++ flagBit f.nextValid ++ f.next ++ f.op

/-- The `done` signal (spec R55). -/
def State.done (s : State) : Bool := decide (s.status.state = .done) || decide (s.status.state = .error)

/-- `trace_valid`: 1 while an instruction record stands on the port (spec R260). That it is 0 while the terminal record stands
there is a DESIGN CHOICE: R261 does not give its level. Log 19. -/
def State.traceValid (s : State) : Bool :=
  match s.trace with
  | some (.insn _) => true
  | _ => false

/-- `trace_end`: 1 while the terminal record stands on the port (spec R261). That it is 0 while an instruction record stands
there is a DESIGN CHOICE: R260 does not give its level. Log 19. -/
def State.traceEnd (s : State) : Bool :=
  match s.trace with
  | some (.terminal _) => true
  | _ => false

/-- `WARN_MARKER` for the four marker bytes: whether any differs from `3A 63 3A 00`, the NUL byte included
(spec R154). -/
def markerDiffers (b0 b1 b2 b3 : Byte) : Bool :=
  b0 != 0x3A#8 || b1 != 0x63#8 || b2 != 0x3A#8 || b3 != 0x00#8

/-- `WARN_RESV` for the two reserved bytes: whether either is nonzero (spec R155). -/
def reservedDiffers (b6 b7 : Byte) : Bool := b6 != 0x00#8 || b7 != 0x00#8

end Sys2Proof.Machine
end

