-- ==== Sys2Proof/Machine/Header.lean ====
section
/-! DEFINITION. START and the header parse (spec 40_control_and_header.md). -/

namespace Sys2Proof.Machine

/-- The options a write of `CTRL` stores (spec R35, R37). -/
def ctrlOptions (w : Word) : Ctrl :=
  { strict := w.getLsbD 1, trim := w.getLsbD 2, limitEn := w.getLsbD 3 }

/-- START (spec R150) with the value `w` written to `CTRL`: stores the options, goes BUSY and clears every result
register; the header parse is the engine's next move (log 8). The bytes of O stay in the memory and are unspecified from
here on (R100, R150): the free byte is applied to a new epoch (log 5). -/
def startCommand (w : Word) (s : State) : State :=
  { s with
    ctrl := ctrlOptions w
    status := ⟨.busy, .none, .none, false, false⟩
    declLen := 0#16
    marker := 0#32
    resv := 0#16
    cursor := 0#32
    outLen := 0#17
    insnCount := 0#16
    faultReg := ⟨0#8, 0#8, false⟩
    hdrPending := true
    trace := none
    outEpoch := s.outEpoch + 1 }

/-- What the header parse loads from its eight bytes (spec R151, R153 to R155, R45, R46). -/
def headerLoad (b0 b1 b2 b3 b4 b5 b6 b7 : Byte) (s : State) : State :=
  { s with
    marker := b3 ++ b2 ++ b1 ++ b0
    declLen := b4 ++ b5
    resv := b7 ++ b6
    status := { s.status with
      warnMarker := markerDiffers b0 b1 b2 b3
      warnResv := reservedDiffers b6 b7 }
    hdrPending := false
    trace := none }

/-- The strict checks, marker first, and the entry point (spec R156, R158, R279). -/
def headerFinish (s : State) : State :=
  if s.ctrl.strict && s.status.warnMarker then raiseError .markerMismatch none s
  else if s.ctrl.strict && s.status.warnResv then raiseError .reservedNonzero none s
  else { s with cursor := 8#32 }

/-- HeaderParse (spec R151): HEADER_TRUNCATED before any stream byte is read (R152, R279), else the load, the strict
checks and the entry point. -/
def headerParse (s : State) : State :=
  if s.streamLen.toNat < 8 then
    raiseError .headerTruncated none { s with hdrPending := false }
  else
    headerFinish (headerLoad (streamByte s 0) (streamByte s 1) (streamByte s 2) (streamByte s 3)
      (streamByte s 4) (streamByte s 5) (streamByte s 6) (streamByte s 7) s)

end Sys2Proof.Machine
end

