-- ==== Sys2Proof/Machine/Port.lean ====
section
/-! DEFINITION. The host's moves: the register port (spec R32 to R39), the window on the output buffer (R95), its writes
of the stream memory (R54), and the reset input (R300, R301). -/

namespace Sys2Proof.Machine

/-- Whether the engine is BUSY (spec R34, R40). -/
def State.busy (s : State) : Bool := decide (s.status.state = .busy)

/-- Whether a register-port access is one the spec has: 4 bytes wide at a multiple of 4 (spec R33). -/
def portAccessOk (offset width : Nat) : Bool := decide (width = 4) && decide (offset % 4 = 0)

/-- The register at a byte offset as the host reads it (spec R32, R33): bits above its width are 0, an unmapped offset
reads 0. -/
def portReadWord (s : State) (offset : Nat) : Word :=
  if offset = 0x00 then ctrlWord s.ctrl
  else if offset = 0x04 then statusWord s.status
  else if offset = 0x08 then s.streamLen
  else if offset = 0x0C then s.maxInsns.setWidth 32
  else if offset = 0x10 then s.declLen.setWidth 32
  else if offset = 0x14 then s.marker
  else if offset = 0x18 then s.resv.setWidth 32
  else if offset = 0x1C then s.cursor
  else if offset = 0x20 then s.outLen.setWidth 32
  else if offset = 0x24 then s.insnCount.setWidth 32
  else if offset = 0x28 then faultWord s.faultReg
  else 0#32

/-- A write of `CTRL` (spec R35, R37, R150): it stores the options, and with bit 0 set it is START with those options. -/
def writeCtrl (w : Word) (s : State) : State :=
  if w.getLsbD 0 then startCommand w s else { s with ctrl := ctrlOptions w }

/-- A write of `STREAM_LEN` stores min(v, `STREAM_CAP`) (spec R38). -/
def writeStreamLen (w : Word) (s : State) : State :=
  { s with streamLen := BitVec.ofNat 32 (min w.toNat Config.streamCap) }

/-- A write of `MAX_INSNS` stores its low 16 bits: bits above a register's width ignore writes (spec R32, R39). -/
def writeMaxInsns (w : Word) (s : State) : State := { s with maxInsns := w.setWidth 16 }

/-- A register-port write (spec R33, R34): ignored while BUSY, at a read-only register and at an unmapped offset. -/
def portWriteWord (offset : Nat) (w : Word) (s : State) : State :=
  if s.busy then s
  else if offset = 0x00 then writeCtrl w s
  else if offset = 0x08 then writeStreamLen w s
  else if offset = 0x0C then writeMaxInsns w s
  else s

/-- The host's window on the output buffer (spec R95): `O[a]` below `OUT_LEN`; an unspecified byte from there to
`OUT_CAP`, whatever the memory still holds (R100, U4; log 5); 0 from `OUT_CAP` on. -/
def outWindow (s : State) (a : Nat) : Byte :=
  if fitsOut (a + 1) then
    if a < s.outLen.toNat then outByte s a else Config.unspecifiedOut s.outEpoch a
  else 0#8

/-- A host write of the stream memory (spec R54): at an address below `STREAM_LEN` while BUSY it is refused (R106, U5), at
an address that does not exist it faults. Log 13. -/
def streamStore (a : Nat) (v : Byte) (s : State) : Host.Outcome State Fault Refusal :=
  if s.busy && decide (a < s.streamLen.toNat) then .refused .streamWriteWhileBusy
  else if a < Config.streamCap then .next { s with stream := Memory.write s.stream a v }
  else .fault .streamAddress

/-- One access of the host, at a state whose trace port is silent. -/
def hostAccess (op : HostOp) (s : State) : Host.Outcome State Fault Refusal :=
  match op with
  | .portRead offset width =>
      if portAccessOk offset width then .next { s with reply := some (.word (portReadWord s offset)) }
      else .refused .portAccess
  | .portWrite offset width value =>
      if portAccessOk offset width then .next (portWriteWord offset value s)
      else .refused .portAccess
  | .outRead a => .next { s with reply := some (.byte (outWindow s a)) }
  | .outWrite _ _ => .next s
  | .streamWrite a v => streamStore a v s

/-- One access of the host. The engine commits nothing in that step, so its trace port presents no record (log 10). -/
def hostStep (op : HostOp) (s : State) : Host.Outcome State Fault Refusal :=
  hostAccess op { s with trace := none }

/-- The reset input (spec R300, R301): every register at its reset value, the trace port silent; S is untouched and the
contents of O are unspecified from here on (log 5). What waits at the inputs and what the host has read stay. -/
def resetStep (s : State) : State :=
  { State.reset with
    stream := s.stream
    inputs := s.inputs
    reply := s.reply
    outEpoch := s.outEpoch + 1 }

end Sys2Proof.Machine
end

