-- ==== Sys2Proof/Machine/Loop.lean ====
section
/-! DEFINITION. The decode loop (spec 41_dispatch_and_termination.md), one move of the machine, and the whole decode as a
function (spec R193). -/

namespace Sys2Proof.Machine

/-- Whether the instruction limit ends the decode (spec R183). -/
def limitReached (s : State) : Bool := s.ctrl.limitEn && decide (s.maxInsns.toNat ≤ s.insnCount.toNat)

/-- LoopStep (spec R180): the three termination checks in their order (R181 to R183, R280), else the instruction at
`CURSOR`. -/
def loopStep (s : State) : Host.Outcome State Fault Refusal :=
  if s.declLen.toNat ≤ s.outLen.toNat then .next (terminate .lengthReached s)
  else if s.streamLen.toNat ≤ s.cursor.toNat then .next (terminate .inputExhausted s)
  else if limitReached s then .next (terminate .limitReached s)
  else exec (fetchInstr s) s

/-- One move of the engine: the header parse that START has asked for (R150), else one loop step while BUSY (R180), else
nothing (R189, R289). -/
def engineStep (s : State) : Host.Outcome State Fault Refusal :=
  if s.busy then (if s.hdrPending then .next (headerParse s) else loopStep s)
  else .next { s with trace := none }

/-- One move of the machine: the first one waiting at the inputs; when none waits, the engine's. Log 7. -/
def moveStep (s : State) : Host.Outcome State Fault Refusal :=
  match s.inputs with
  | [] => engineStep s
  | .engine :: rest => engineStep { s with inputs := rest }
  | .host op :: rest => hostStep op { s with inputs := rest }
  | .rst :: rest => .next (resetStep { s with inputs := rest })

/-- At most n loop steps, ending where the engine is no longer BUSY. -/
def runLoop : Nat → State → Host.Outcome State Fault Refusal
  | 0, s => .next s
  | n + 1, s =>
      if s.busy then
        match loopStep s with
        | .next t => runLoop n t
        | o => o
      else .next s

/-- What a decode gives (spec R193). -/
structure DecodeResult where
  status : Status
  declLen : BitVec 16
  marker : Word
  resv : BitVec 16
  cursor : Word
  outLen : BitVec 17
  insnCount : BitVec 16
  fault : FaultInfo
  output : List Byte
deriving DecidableEq, Repr

/-- The result registers and the decoded output of a state (spec R193). -/
def decodeResult (s : State) : DecodeResult :=
  { status := s.status, declLen := s.declLen, marker := s.marker, resv := s.resv, cursor := s.cursor,
    outLen := s.outLen, insnCount := s.insnCount, fault := s.faultReg, output := s.output }

/-- The whole decode that writing `w` to `CTRL` starts (spec R193): START, the header parse, then as many loop steps as a
decode can take, `DECL_LEN` + 1 (spec R192). -/
def decodeRun (w : Word) (s : State) : Host.Outcome State Fault Refusal :=
  let s1 := headerParse (startCommand w s)
  runLoop (s1.declLen.toNat + 1) s1

/-- Where `withFetchWord` puts the instruction: the cursor it finds, or the entry point 8 where that is no place for an
instruction (spec R93, R111, R158). -/
def fetchPlace (s : State) : Nat :=
  if 8 ≤ s.cursor.toNat ∧ s.cursor.toNat + 2 < 2 ^ 32 then s.cursor.toNat else 8

/-- The state with two bytes placed as the next instruction, ready so that the very next step runs it: BUSY in the decode
loop with none of the termination checks holding and no other move waiting. A value is changed only where it would keep
the step from fetching. Log 12. -/
def loadInstruction (s : State) (b n : Byte) : State :=
  let place := fetchPlace s
  let outLen := if s.outLen.toNat < 65535 then s.outLen else 0#17
  { s with
    stream := Memory.write (Memory.write s.stream place b) (place + 1) n
    streamLen := BitVec.ofNat 32 (max s.streamLen.toNat (place + 2))
    cursor := BitVec.ofNat 32 place
    outLen := outLen
    declLen := if outLen.toNat < s.declLen.toNat then s.declLen else 65535#16
    status := { s.status with state := .busy, term := .none, err := .none }
    ctrl := { s.ctrl with limitEn := s.ctrl.limitEn && decide (s.insnCount.toNat < s.maxInsns.toNat) }
    hdrPending := false
    inputs := [] }

end Sys2Proof.Machine
end

