-- ==== Sys2Proof/Machine/Step.lean ====
section
/-! DEFINITION. The step of the machine, and a state that is about to run a given instruction. -/

namespace Sys2Proof.Machine

/-- One step: one move of the engine, the host or the reset input (spec R16, R30, R92). -/
def step (s : State) : Host.Outcome State Fault Refusal := moveStep s

/-- `s` with the instruction that the opcode table numbers `w` placed where the very next step fetches it. Logs 11 and
12. -/
def State.withFetchWord (s : State) (nbits w : Nat) : State :=
  loadInstruction s (tableWordBytes nbits w).1 (tableWordBytes nbits w).2

end Sys2Proof.Machine
end

