-- ==== Sys2Proof/Machine/Cycle.lean ====
section
/-! DEFINITION. The cycle-level state machine (spec R200 to R205), the spec's informative refinement of the instruction
step, as a machine of its own beside `step`. Its latches are the hidden state of R56, which an instruction-step model
omits: they stand in `Micro`, not in `State`. Log 17. -/

namespace Sys2Proof.Machine

/-- The states of the cycle-level machine (spec R200). -/
inductive MicroState where
  | idle
  | hdr
  | check
  | fetchOp
  | fetchArg
  | execLut
  | execLit
  | agen
  | copy
  | commit
  | done
  | error
deriving DecidableEq, Repr

/-- The cycle-level machine: the architectural state and the latches (spec R202). -/
structure Micro where
  /-- The registers and memories the instruction-step machine has. -/
  arch : State
  /-- The state of the machine (spec R200). -/
  fsm : MicroState
  /-- The header-byte counter. -/
  hc : BitVec 3
  /-- The header latch: the header bytes read so far, byte 0 first (spec R201). -/
  latch : List Byte
  /-- The opcode latch `OP`. -/
  op : Byte
  /-- The next-byte latch `ARG`. -/
  arg : Byte
  /-- The copy source pointer `SRC`. -/
  src : BitVec 17
  /-- The copy destination pointer `DST`. -/
  dst : BitVec 17
  /-- The remaining-count counter `CNT`. -/
  cnt : BitVec 5
  /-- How far the commit advances `CURSOR`. -/
  adv : BitVec 2
  /-- How many bytes the commit adds to `OUT_LEN`. -/
  k : BitVec 5
deriving DecidableEq, Repr

/-- What `STATUS.STATE` reads in a state of the cycle-level machine (spec R200). -/
def MicroState.engineState : MicroState → EngineState
  | .idle => .idle
  | .done => .done
  | .error => .error
  | _ => .busy

/-- The machine in a given state over an architectural state, with every latch 0 and the header latch empty. The spec gives
the latches no reset value (R56, R58, R202, R300 speak of none): the zeros are a DESIGN CHOICE, on which no decode depends.
Log 18. -/
def microAt (f : MicroState) (s : State) : Micro :=
  { arch := s, fsm := f, hc := 0#3, latch := [], op := 0#8, arg := 0#8, src := 0#17, dst := 0#17, cnt := 0#5,
    adv := 0#2, k := 0#5 }

/-- One byte written to O, as the EXEC and COPY states do (spec R201, R239). -/
def storeOut (a : BitVec 17) (v : Byte) (s : State) : State :=
  { s with out := Memory.write s.out a.toNat v }

/-- The HDR state (spec R201): one header byte a clock, the checks with the last one. -/
def cycleHdr (m : Micro) : Micro :=
  if m.arch.streamLen.toNat < 8 then
    { m with arch := raiseError .headerTruncated none { m.arch with hdrPending := false }, fsm := .error }
  else if m.hc.toNat < 7 then
    { m with latch := m.latch ++ [streamByte m.arch m.hc.toNat], hc := m.hc + 1#3 }
  else
    let s := headerFinish (headerLoad (m.latch.getD 0 0#8) (m.latch.getD 1 0#8) (m.latch.getD 2 0#8)
      (m.latch.getD 3 0#8) (m.latch.getD 4 0#8) (m.latch.getD 5 0#8) (m.latch.getD 6 0#8) (streamByte m.arch 7) m.arch)
    { m with arch := s, fsm := if s.busy then .check else .error }

/-- The CHECK state (spec R201): the termination checks of R181 to R183. -/
def cycleCheck (m : Micro) : Micro :=
  if m.arch.declLen.toNat ≤ m.arch.outLen.toNat then
    { m with arch := terminate .lengthReached m.arch, fsm := .done }
  else if m.arch.streamLen.toNat ≤ m.arch.cursor.toNat then
    { m with arch := terminate .inputExhausted m.arch, fsm := .done }
  else if limitReached m.arch then
    { m with arch := terminate .limitReached m.arch, fsm := .done }
  else { m with fsm := .fetchOp }

/-- The FETCH_OP state (spec R201). -/
def cycleFetchOp (m : Micro) : Micro :=
  let b := fetchOpcode m.arch
  if instrLength b = 1 then { m with op := b, fsm := .execLut }
  else if hasNextByte m.arch then { m with op := b, fsm := .fetchArg }
  else { m with op := b, arch := raiseError .truncatedInstruction (some ⟨b, 0#8, false⟩) m.arch, fsm := .error }

/-- The FETCH_ARG state (spec R201). -/
def cycleFetchArg (m : Micro) : Micro :=
  { m with
    arg := streamByte m.arch (m.arch.cursor.toNat + 1)
    fsm := if m.op.toNat = 0x00 then .execLit else .agen }

/-- The AGEN state (spec R201, R238): the address generator. -/
def cycleAgen (m : Micro) : Micro :=
  let offset := copyOffsetField m.op m.arg
  let length := copyLengthField m.arg
  if spanValid m.arch offset length then
    { m with
      src := BitVec.ofNat 17 (copyStart m.arch offset).toNat
      dst := m.arch.outLen
      k := BitVec.ofNat 5 (copyCount m.arch length)
      cnt := BitVec.ofNat 5 (copyCount m.arch length)
      adv := 2#2
      fsm := .copy }
  else
    { m with
      arch := raiseError .invalidBackReference (some ⟨m.op, m.arg, true⟩) m.arch
      fsm := .error }

/-- The COPY state (spec R201, R239): one byte a clock until `CNT` is 0. -/
def cycleCopy (m : Micro) : Micro :=
  if m.cnt.toNat = 0 then { m with fsm := .commit }
  else
    { m with
      arch := storeOut m.dst (outByte m.arch m.src.toNat) m.arch
      src := m.src + 1#17
      dst := m.dst + 1#17
      cnt := m.cnt - 1#5 }

/-- The COMMIT state (spec R201, R97, R260). -/
def cycleCommit (m : Micro) : Micro :=
  { m with
    arch := commit m.adv.toNat (insnRecord m.arch m.k.toNat (decodeOp m.op m.arg)) m.arch
    fsm := .check }

/-- One clock of the cycle-level machine (spec R201) whose trace port is silent. -/
def cycleQuiet (m : Micro) : Micro :=
  match m.fsm with
  | .idle => m
  | .done => m
  | .error => m
  | .hdr => cycleHdr m
  | .check => cycleCheck m
  | .fetchOp => cycleFetchOp m
  | .fetchArg => cycleFetchArg m
  | .execLut =>
      { m with
        arch := storeOut m.arch.outLen (Config.lutTable (Fin.ofNat 60 m.op.toNat)) m.arch
        adv := 1#2, k := 1#5, fsm := .commit }
  | .execLit =>
      { m with arch := storeOut m.arch.outLen m.arg m.arch, adv := 2#2, k := 1#5, fsm := .commit }
  | .agen => cycleAgen m
  | .copy => cycleCopy m
  | .commit => cycleCommit m

/-- One clock of the cycle-level machine (spec R201). A trace record stands for one clock (spec R260, R261). -/
def cycle (m : Micro) : Micro := cycleQuiet { m with arch := { m.arch with trace := none } }

/-- n clocks. -/
def cycles : Nat → Micro → Micro
  | 0, m => m
  | n + 1, m => cycles n (cycle m)

/-- A host START, which the IDLE, DONE and ERROR states take (spec R150, R201); BUSY ignores it (spec R34). -/
def cycleStart (w : Word) (m : Micro) : Micro :=
  if m.arch.busy then m else { m with arch := startCommand w m.arch, fsm := .hdr, hc := 0#3, latch := [] }

/-- The reset input (spec R300, R301). What it leaves in the latches is a DESIGN CHOICE, see `microAt`. Log 18. -/
def cycleReset (m : Micro) : Micro := microAt .idle (resetStep m.arch)

/-- The clocks of a header parse (spec R204). -/
def headerCycles (s : State) : Nat := if s.streamLen.toNat < 8 then 1 else 8

/-- The clocks of the instruction `i` (spec R204), its CHECK among them. -/
def instrCycles (s : State) : Instr → Nat
  | .lut _ => 4
  | .lit _ => if hasNextByte s then 5 else 2
  | .copy offset length =>
      if hasNextByte s then (if spanValid s offset length then 6 + copyCount s length else 4) else 2

/-- The clocks of one loop step (spec R204). -/
def loopCycles (s : State) : Nat :=
  if s.declLen.toNat ≤ s.outLen.toNat then 1
  else if s.streamLen.toNat ≤ s.cursor.toNat then 1
  else if limitReached s then 1
  else instrCycles s (fetchInstr s)

end Sys2Proof.Machine
end

