-- ==== Sys2Proof/Safety.lean ====
section
/-! DEFINITION. What counts as a safe state, and the words the statements use: when the loop step reaches an instruction,
and what a commit, a halt and a host access leave unchanged. -/

namespace Sys2Proof.Machine

/-- The relations between the fields of `STATUS` (spec R42). -/
def Status.consistent (st : Status) : Prop :=
  (st.state = .error ↔ st.term = .error) ∧
  (st.term = .error ↔ st.err ≠ .none) ∧
  (st.state = .done ↔ (st.term = .lengthReached ∨ st.term = .inputExhausted ∨ st.term = .limitReached)) ∧
  ((st.state = .idle ∨ st.state = .busy) ↔ st.term = .none) ∧
  (st.state = .idle → st.warnMarker = false ∧ st.warnResv = false)

/-- Both memories are in canonical form and list only addresses that exist (spec R53, R54, R80, R81). -/
def MemoriesOk (s : State) : Prop :=
  Memory.wf s.stream = true ∧ Memory.wf s.out = true ∧
  (∀ c ∈ s.stream, c.1 < Config.streamCap) ∧ (∀ c ∈ s.out, c.1 < Config.outCap)

/-- The result registers as START leaves them (spec R150) and as reset does (spec R58). -/
def ResultsClear (s : State) : Prop :=
  s.declLen = 0#16 ∧ s.marker = 0#32 ∧ s.resv = 0#16 ∧ s.cursor = 0#32 ∧ s.outLen = 0#17 ∧ s.insnCount = 0#16 ∧
  s.faultReg = ⟨0#8, 0#8, false⟩

/-- Every byte of the decoded output has been written by an instruction (spec R53, R98). -/
def OutputWritten (s : State) : Prop := ∀ a, a < s.outLen.toNat → (Memory.lookup s.out a).isSome = true

/-- What holds in the decode loop between instruction steps (spec R59, R191). -/
def LoopBounds (s : State) : Prop :=
  8 ≤ s.cursor.toNat ∧ s.cursor.toNat ≤ s.streamLen.toNat ∧
  s.insnCount.toNat ≤ s.outLen.toNat ∧ s.insnCount.toNat ≤ s.declLen.toNat ∧
  (s.ctrl.trim = false → s.outLen.toNat ≤ s.declLen.toNat + 16) ∧
  (s.ctrl.trim = true → s.outLen.toNat ≤ s.declLen.toNat) ∧
  s.faultReg = ⟨0#8, 0#8, false⟩ ∧ OutputWritten s

/-- Whether an error code is one the header parse raises (spec R270). -/
def Err.ofHeader : Err → Bool
  | .headerTruncated => true
  | .markerMismatch => true
  | .reservedNonzero => true
  | _ => false

/-- What a finished decode leaves until the next START or reset (spec R59, R187, R188, R270, R276, R304). The host may
write `STREAM_LEN` and `CTRL` again, so nothing is said about them. -/
def FinishedBounds (s : State) : Prop :=
  s.insnCount.toNat ≤ s.outLen.toNat ∧ s.insnCount.toNat ≤ s.declLen.toNat ∧
  s.outLen.toNat ≤ s.declLen.toNat + 16 ∧ OutputWritten s ∧
  (s.status.term = .lengthReached → s.declLen.toNat ≤ s.outLen.toNat) ∧
  (s.status.term = .inputExhausted ∨ s.status.term = .limitReached → s.outLen.toNat < s.declLen.toNat) ∧
  (s.status.state = .done → 8 ≤ s.cursor.toNat ∧ s.faultReg = ⟨0#8, 0#8, false⟩) ∧
  (s.status.state = .error → s.status.err.ofHeader = true →
    s.cursor = 0#32 ∧ s.outLen = 0#17 ∧ s.insnCount = 0#16 ∧ s.faultReg = ⟨0#8, 0#8, false⟩) ∧
  (s.status.state = .error → s.status.err.ofHeader = false →
    8 ≤ s.cursor.toNat ∧ s.outLen.toNat < s.declLen.toNat)

/-- The invariant of the machine: what holds at reset and what every step keeps. -/
structure Invariant (s : State) : Prop where
  status : s.status.consistent
  memories : MemoriesOk s
  streamLen : s.streamLen.toNat ≤ Config.streamCap
  cursor : s.cursor.toNat ≤ Config.streamCap
  idle : s.status.state = .idle → ResultsClear s
  pending : s.hdrPending = true →
    s.status.state = .busy ∧ ResultsClear s ∧ s.status.warnMarker = false ∧ s.status.warnResv = false
  loop : s.status.state = .busy → s.hdrPending = false → LoopBounds s
  finished : s.status.state = .done ∨ s.status.state = .error → FinishedBounds s

/-- The decode loop is running: BUSY after a header parse that raised nothing (spec R180). -/
def InLoop (s : State) : Prop := s.status.state = .busy ∧ s.hdrPending = false

/-- None of the termination checks holds, so the loop step reaches an instruction (spec R180 to R183). -/
def ReachesInstruction (s : State) : Prop :=
  s.outLen.toNat < s.declLen.toNat ∧ s.cursor.toNat < s.streamLen.toNat ∧ limitReached s = false

/-- Whether a waiting move is a START of an engine that is not BUSY, or a reset: the moves that end a result (spec R189,
R283). -/
def endsResult (s : State) : Bool :=
  match s.inputs with
  | .rst :: _ => true
  | .host (.portWrite offset width value) :: _ =>
      !s.busy && portAccessOk offset width && decide (offset = 0x00) && value.getLsbD 0
  | _ => false

/-- The configuration registers are unchanged (spec R34). -/
def ConfigKept (s t : State) : Prop :=
  t.ctrl = s.ctrl ∧ t.streamLen = s.streamLen ∧ t.maxInsns = s.maxInsns

/-- The registers of the header parse, the stream and the model's own fields are unchanged. -/
def HeaderKept (s t : State) : Prop :=
  t.declLen = s.declLen ∧ t.marker = s.marker ∧ t.resv = s.resv ∧ t.stream = s.stream ∧
  t.hdrPending = s.hdrPending ∧ t.inputs = s.inputs ∧ t.reply = s.reply ∧ t.outEpoch = s.outEpoch

/-- The frame of an instruction that commits (spec R57): all but `CURSOR`, `OUT_LEN`, `INSN_COUNT`, the output buffer and
the trace port is unchanged. -/
def CommitFrame (s t : State) : Prop :=
  ConfigKept s t ∧ HeaderKept s t ∧ t.status = s.status ∧ t.faultReg = s.faultReg

/-- The frame of an error halt and of a termination (spec R188, R276): `CURSOR`, `OUT_LEN`, `INSN_COUNT`, the output buffer,
the warnings and all else but `STATE`, `TERM`, `ERR`, `FAULT` and the trace port is unchanged. -/
def HaltFrame (s t : State) : Prop :=
  ConfigKept s t ∧ HeaderKept s t ∧ t.cursor = s.cursor ∧ t.outLen = s.outLen ∧ t.insnCount = s.insnCount ∧
  t.out = s.out ∧ t.status.warnMarker = s.status.warnMarker ∧ t.status.warnResv = s.status.warnResv

/-- The error halt with error `e` (spec R276): `STATE` and `TERM` read ERROR, `ERR` is `e`, `done` is 1, the terminal
record is on the trace port (spec R261), and the rest is unchanged. -/
def HaltedWith (e : Err) (f : FaultInfo) (s t : State) : Prop :=
  t.status.state = .error ∧ t.status.term = .error ∧ t.status.err = e ∧ t.faultReg = f ∧ t.done = true ∧
  t.trace = some (.terminal (termRecord t)) ∧ HaltFrame s t

/-- The termination with reason `r` (spec R188): `STATE` reads DONE and `TERM` reads `r`, `done` is 1, the terminal record
is on the trace port, and the rest is unchanged. -/
def TerminatedWith (r : Term) (s t : State) : Prop :=
  t.status.state = .done ∧ t.status.term = r ∧ t.status.err = s.status.err ∧ t.faultReg = s.faultReg ∧
  t.done = true ∧ t.trace = some (.terminal (termRecord t)) ∧ HaltFrame s t

/-- The commit of an instruction that appends k bytes and is `adv` bytes long (spec R97): the three registers move
together, no byte of O outside the k appended ones changes, and the rest is unchanged. -/
def CommittedBy (k adv : Nat) (s t : State) : Prop :=
  t.outLen.toNat = s.outLen.toNat + k ∧ t.cursor.toNat = s.cursor.toNat + adv ∧ t.insnCount = s.insnCount + 1#16 ∧
  (∀ a, a < s.outLen.toNat ∨ s.outLen.toNat + k ≤ a → Memory.lookup t.out a = Memory.lookup s.out a) ∧
  CommitFrame s t

/-- n steps of the machine, ending at the first fault or refusal. -/
def steps : Nat → State → Host.Outcome State Fault Refusal
  | 0, s => .next s
  | n + 1, s =>
      match step s with
      | .next t => steps n t
      | o => o

/-- Two states hold the same stream, length of stream and instruction limit, so the same decode may start from both
(spec R193, R194). -/
def SameDecodeInput (s s' : State) : Prop :=
  s.streamLen = s'.streamLen ∧ s.maxInsns = s'.maxInsns ∧
  ∀ a, a < s.streamLen.toNat → streamByte s a = streamByte s' a

/-- From address 8 on, the stream of `s` is the literal escapes of the bytes `vs` and nothing else (spec R211). -/
def LiteralStream (s : State) (vs : List Byte) : Prop :=
  s.streamLen.toNat = 8 + 2 * vs.length ∧
  ∀ i, i < vs.length → streamByte s (8 + 2 * i) = 0x00#8 ∧ streamByte s (8 + 2 * i + 1) = vs.getD i 0#8

/-- The length the header declares (spec R153). -/
def declaredLength (s : State) : Nat := (streamByte s 4).toNat * 256 + (streamByte s 5).toNat

end Sys2Proof.Machine
end

