-- ==== Sys2Proof/Certificates/Slice0/Obligations.lean ====
section
/-! DEFINITION. The statements for the provers. Each formalises rules of the spec, or says in its docstring what else it
rests on. A statement about the engine's move is made at states where no other move waits (`inputs = []`); what a waiting
move does is `WaitingMovesTakeTheirTurn`. -/

open Sys2Proof Sys2Proof.Machine

/-! ## Encoding (30_encoding.md) -/

/-- Encoding an instruction and decoding it gives it back, with the bytes after it, at every operand value an encoding
exists for. The spec marks the bijection as its own inference (R123). -/
def Obligations.DecodeOfEncodeIsTheInstruction : Prop :=
  ∀ (i : Instr) (rest : List Byte), i.wellFormed = true → decode (encode i ++ rest) = .ok (i, rest)

/-- Each instruction has one encoding: what decodes was the encoding of a well-formed instruction. The spec marks this as
its own inference (R123). -/
def Obligations.EncodeOfDecodeIsTheBytes : Prop :=
  ∀ (bytes rest : List Byte) (i : Instr), decode bytes = .ok (i, rest) →
    i.wellFormed = true ∧ encode i ++ rest = bytes

/-- The decoder refuses bytes only for want of bytes: no opcode byte and no next byte is illegal. The spec marks R120 as
its own inference from the ranges of R119. -/
def Obligations.DecoderRejectsOnlyMissingBytes : Prop :=
  ∀ (bytes : List Byte) (e : DecodeError), decode bytes = .error e ↔
    (bytes = [] ∧ e = .noOpcodeByte) ∨
    (∃ b : Byte, bytes = [b] ∧ (b = 0x00#8 ∨ 0x3C ≤ b.toNat) ∧ e = .truncated b)

/-- The opcode byte alone selects the instruction and its length, by the three ranges (R112, R119). -/
def Obligations.OpcodeByteSelectsInstructionAndLength : Prop :=
  ∀ b n : Byte,
    (b = 0x00#8 → decodeOp b n = .lit n ∧ instrLength b = 2) ∧
    (1 ≤ b.toNat → b.toNat ≤ 0x3B →
      ∃ i : Fin 60, i.val = b.toNat ∧ decodeOp b n = .lut i ∧ instrLength b = 1) ∧
    (0x3C ≤ b.toNat → ∃ (offset : BitVec 12) (length : BitVec 5),
      offset.toNat = (b.toNat - 0x3C) * 16 + n.toNat % 16 ∧ length.toNat = n.toNat / 16 + 2 ∧
      decodeOp b n = .copy offset length ∧ instrLength b = 2)

/-- The `COPY` offset is (b - 0x3C) * 16 + (n & 0x0F), from 0 to 3135 (R116), and its length is (n >> 4) + 2, from 2 to 17
(R117); each end of both ranges is reached by exactly the bytes the rules give. -/
def Obligations.CopyOffsetAndLengthAreTheirBitFields : Prop :=
  ∀ b n : Byte, 0x3C ≤ b.toNat →
    (copyOffsetField b n).toNat = (b.toNat - 0x3C) * 16 + n.toNat % 16 ∧
    (copyOffsetField b n).toNat ≤ 3135 ∧
    ((copyOffsetField b n).toNat = 0 ↔ b = 0x3C#8 ∧ n.toNat % 16 = 0) ∧
    ((copyOffsetField b n).toNat = 3135 ↔ b = 0xFF#8 ∧ n.toNat % 16 = 15) ∧
    (copyLengthField n).toNat = n.toNat / 16 + 2 ∧
    2 ≤ (copyLengthField n).toNat ∧ (copyLengthField n).toNat ≤ 17 ∧
    ((copyLengthField n).toNat = 2 ↔ n.toNat / 16 = 0) ∧ ((copyLengthField n).toNat = 17 ↔ n.toNat / 16 = 15)

/-- Some words of the spec's own encoding examples decode to the instructions they stand for (a sanity statement). -/
def Obligations.SpecExampleWordsDecode : Prop :=
  decode [0x00#8, 0x41#8] = .ok (.lit 0x41#8, []) ∧
  decode [0x3B#8, 0x41#8] = .ok (.lut 59, [0x41#8]) ∧
  decode [0x40#8, 0xA7#8] = .ok (.copy 71#12 12#5, []) ∧
  decode [0xFF#8, 0xFF#8] = .ok (.copy 3135#12 17#5, [])

/-! ## The step and the loop (41_dispatch_and_termination.md) -/

/-- Where the loop step reaches an instruction, the step is `exec` of the instruction that the bytes at `CURSOR` decode
to, at that very state. The second byte is S[CURSOR+1] where the stream has it. -/
def Obligations.StepRunsTheDecodedInstruction : Prop :=
  ∀ (s : State) (i : Instr) (rest : List Byte), s.inputs = [] → InLoop s → ReachesInstruction s →
    decode [fetchOpcode s, fetchNext s] = .ok (i, rest) → i.wellFormed = true →
    step s = exec i s ∧ fetchOpcode s = streamByte s s.cursor.toNat ∧
    (s.cursor.toNat + 1 < s.streamLen.toNat → fetchNext s = streamByte s (s.cursor.toNat + 1))

/-- A word placed by `withFetchWord` is what the very next step runs, from every state. `withFetchWord` is the model's own
(log 12), and so is the order of the bytes in a table word (log 11). -/
def Obligations.StepRunsThePlacedTableWord : Prop :=
  ∀ (s : State) (nbits w : Nat) (i : Instr), decodeTableWord nbits w = some i →
    step (s.withFetchWord nbits w) = exec i (s.withFetchWord nbits w)

/-- When `OUT_LEN` ≥ `DECL_LEN` the decode terminates with LENGTH_REACHED, whatever the other checks say (R181), and with
`DECL_LEN` = 0 at once. -/
def Obligations.DeclaredLengthReachedTerminates : Prop :=
  ∀ s : State, s.inputs = [] → InLoop s → (s.declLen.toNat ≤ s.outLen.toNat ∨ s.declLen = 0#16) →
    ∃ t, step s = .next t ∧ TerminatedWith .lengthReached s t ∧ t.done = true

/-- When the output is short and the stream is used up, the decode terminates with INPUT_EXHAUSTED, in state DONE and not
in error (R182). -/
def Obligations.ExhaustedInputTerminates : Prop :=
  ∀ s : State, s.inputs = [] → InLoop s → s.outLen.toNat < s.declLen.toNat →
    s.streamLen.toNat ≤ s.cursor.toNat → ∃ t, step s = .next t ∧ TerminatedWith .inputExhausted s t

/-- The instruction limit ends a decode with LIMIT_REACHED in state DONE, checked after the other two; with `MAX_INSNS` = 0
no instruction is decoded (R183). -/
def Obligations.InstructionLimitTerminates : Prop :=
  ∀ s : State, s.inputs = [] → InLoop s → s.outLen.toNat < s.declLen.toNat →
    s.cursor.toNat < s.streamLen.toNat → s.ctrl.limitEn = true →
    (s.maxInsns.toNat ≤ s.insnCount.toNat ∨ s.maxInsns = 0#16) →
    ∃ t, step s = .next t ∧ TerminatedWith .limitReached s t

/-- After a termination or an error halt, and before any START, a move of the engine changes no register and no byte of
memory: only the trace record, which stands for one step, goes away (R189, R289; the trace port's part is log 10). -/
def Obligations.QuiescentEngineChangesNothing : Prop :=
  ∀ s : State, s.inputs = [] → s.status.state ≠ .busy →
    ∃ t, step s = .next t ∧ t.trace = none ∧ HaltFrame s t ∧ t.status = s.status ∧ t.faultReg = s.faultReg

/-- The first waiting move is the step and the rest waits on. The engine's turn answers the next state it answers when no
move waits; a host access is performed (`hostStep`), stops included, and so is the reset input (`resetStep`). How moves wait is the model's
own (log 7), and so is the reset input as one move (log 15). -/
def Obligations.WaitingMovesTakeTheirTurn : Prop :=
  ∀ (s : State) (m : Input) (rest : List Input), s.inputs = m :: rest →
    (∀ t, step s = .next t → t.inputs = rest) ∧
    (m = .engine → ∃ t, step { s with inputs := [] } = .next t ∧ step s = .next { t with inputs := rest }) ∧
    (∀ op, m = .host op → step s = hostStep op { s with inputs := rest }) ∧
    (m = .rst → step s = .next (resetStep { s with inputs := rest }))

/-! ## LIT (42_literal.md) -/

/-- `LIT v` with its next byte in the stream appends v verbatim at `OUT_LEN` and commits: `OUT_LEN` + 1, `CURSOR` + 2,
`INSN_COUNT` + 1, its trace record, and nothing else (R210, R97, R260). -/
def Obligations.LiteralAppendsItsOperand : Prop :=
  ∀ (v : Byte) (s : State), s.outLen.toNat < s.declLen.toNat → s.cursor.toNat + 1 < s.streamLen.toNat →
    ∃ t, exec (.lit v) s = .next t ∧ CommittedBy 1 2 s t ∧ Memory.lookup t.out s.outLen.toNat = some v ∧
      t.trace = some (.insn ⟨.lit, s.cursor, 0x00#8, v, 0#12, 0#5, s.outLen, 1#5⟩)

/-- `LIT` whose opcode byte is the last byte of the stream halts with TRUNCATED_INSTRUCTION: `CURSOR` keeps the address of
the opcode byte, `OUT_LEN` and O are unchanged, and `FAULT` records opcode 0x00 and no next byte (R212). -/
def Obligations.TruncatedLiteralHalts : Prop :=
  ∀ (v : Byte) (s : State), s.streamLen.toNat ≤ s.cursor.toNat + 1 →
    ∃ t, exec (.lit v) s = .next t ∧ HaltedWith .truncatedInstruction ⟨0x00#8, 0#8, false⟩ s t

/-! ## LUT (43_table_lookup.md) -/

/-- `LUT i` appends entry i of the table at `OUT_LEN` and commits: `OUT_LEN` + 1, `CURSOR` + 1, `INSN_COUNT` + 1, its trace
record, and nothing else; it raises no error, at the last byte of the stream either (R220, R97, R260). The rules speak of i
from 1 to 59; that the term with i = 0, which no encoding stands for and no step runs, is total and does the same is the
model's own (log 16). -/
def Obligations.LookupAppendsItsTableEntry : Prop :=
  ∀ (i : Fin 60) (s : State), s.outLen.toNat < s.declLen.toNat → s.cursor.toNat < s.streamLen.toNat →
    ∃ t, exec (.lut i) s = .next t ∧ CommittedBy 1 1 s t ∧
      Memory.lookup t.out s.outLen.toNat = some (Config.lutTable i) ∧
      t.trace = some (.insn ⟨.lut, s.cursor, BitVec.ofNat 8 i.val, 0#8, 0#12, 0#5, s.outLen, 1#5⟩)

/-- Decoding a byte b from 0x01 to 0x3B appends exactly entry b of the table and advances the cursor by 1. The value
depends only on b and the table: it is the same in every state (R221). -/
def Obligations.LookupStepAppendsTheEntryOfItsByte : Prop :=
  ∀ (s : State) (b : Fin 60), s.inputs = [] → InLoop s → ReachesInstruction s → b.val ≠ 0 →
    streamByte s s.cursor.toNat = BitVec.ofNat 8 b.val →
    ∃ t, step s = .next t ∧ CommittedBy 1 1 s t ∧
      Memory.lookup t.out s.outLen.toNat = some (Config.lutTable b)

/-! ## COPY (44_back_reference.md) -/

/-- A valid `COPY` appends k bytes, the i-th one O[start + i] as it was before the instruction, with start = `OUT_LEN` -
offset and k = length, or with `CTRL.TRIM` = 1 at most `DECL_LEN` - `OUT_LEN`; it commits with `CURSOR` + 2,
`INSN_COUNT` + 1, its trace record, and nothing else (R230, R235, R236, R97, R260). -/
def Obligations.CopyAppendsItsSpan : Prop :=
  ∀ (offset : BitVec 12) (length : BitVec 5) (s : State), (Instr.copy offset length).wellFormed = true →
    s.outLen.toNat < s.declLen.toNat → s.cursor.toNat + 1 < s.streamLen.toNat →
    length.toNat ≤ offset.toNat → offset.toNat ≤ s.outLen.toNat →
    ∃ t k, exec (.copy offset length) s = .next t ∧
      k = (if s.ctrl.trim then min length.toNat (s.declLen.toNat - s.outLen.toNat) else length.toNat) ∧
      CommittedBy k 2 s t ∧
      (∀ j, j < k →
        Memory.lookup t.out (s.outLen.toNat + j) = some (outByte s (s.outLen.toNat - offset.toNat + j))) ∧
      t.trace = some (.insn ⟨.copy, s.cursor, BitVec.ofNat 8 (0x3C + offset.toNat / 16),
        BitVec.ofNat 8 ((length.toNat - 2) * 16 + offset.toNat % 16), offset, length, s.outLen, BitVec.ofNat 5 k⟩)

/-- `COPY` without a next byte halts with TRUNCATED_INSTRUCTION, whatever its span; `CURSOR` stays at the opcode byte, O
and `OUT_LEN` are unchanged, and `FAULT` records its opcode byte and no next byte (R231, R278). -/
def Obligations.TruncatedCopyHalts : Prop :=
  ∀ (s : State), s.inputs = [] → InLoop s → ReachesInstruction s →
    0x3C ≤ (streamByte s s.cursor.toNat).toNat → s.streamLen.toNat ≤ s.cursor.toNat + 1 →
    ∃ t, step s = .next t ∧
      HaltedWith .truncatedInstruction ⟨streamByte s s.cursor.toNat, 0#8, false⟩ s t

/-- A `COPY` of bytes b and n whose start is negative or whose span ends past the output halts with
INVALID_BACK_REFERENCE: it appends nothing, changes none of `CURSOR`, `OUT_LEN` and `INSN_COUNT`, and `FAULT` records b
and n (R233, R237, R273). -/
def Obligations.InvalidCopyHaltsWithoutEffect : Prop :=
  ∀ (s : State) (b n : Byte) (start : Int), s.inputs = [] → InLoop s → ReachesInstruction s →
    s.cursor.toNat + 1 < s.streamLen.toNat →
    streamByte s s.cursor.toNat = b → streamByte s (s.cursor.toNat + 1) = n → 0x3C ≤ b.toNat →
    start = (s.outLen.toNat : Int) - (((b.toNat - 0x3C) * 16 + n.toNat % 16 : Nat) : Int) →
    (start < 0 ∨ start + ((n.toNat / 16 + 2 : Nat) : Int) > (s.outLen.toNat : Int)) →
    ∃ t, step s = .next t ∧ HaltedWith .invalidBackReference ⟨b, n, true⟩ s t

/-- A span is valid exactly when length ≤ offset ≤ `OUT_LEN`, which is what the address generator decides from an 18-bit
difference and its borrow (R238); then the source lies wholly below `OUT_LEN`, where the appended bytes go. The spec marks
the equivalence (R234) and the disjointness (R99) as its own inferences. -/
def Obligations.SpanIsValidExactlyWhenLengthOffsetOutput : Prop :=
  ∀ (s : State) (offset : BitVec 12) (length : BitVec 5),
    (spanValid s offset length = true ↔ length.toNat ≤ offset.toNat ∧ offset.toNat ≤ s.outLen.toNat) ∧
    spanValidDatapath s offset length = spanValid s offset length ∧
    (spanValid s offset length = true →
      (copyStart s offset).toNat + copyCount s length ≤ s.outLen.toNat) ∧
    (2 ≤ length.toNat → offset.toNat ≤ 1 ∨ s.outLen.toNat < 2 → spanValid s offset length = false)

/-- With `CTRL.TRIM` = 1 an instruction never takes the output past `DECL_LEN`, and without it never more than 16 bytes
past. The spec marks the bound as its own inference (R187). -/
def Obligations.AppendOvershootsAtMostSixteen : Prop :=
  ∀ (i : Instr) (s t : State), i.wellFormed = true → s.outLen.toNat < s.declLen.toNat → exec i s = .next t →
    t.outLen.toNat ≤ s.declLen.toNat + 16 ∧
    (s.ctrl.trim = true → t.outLen.toNat ≤ s.declLen.toNat) ∧ s.outLen.toNat ≤ t.outLen.toNat

/-! ## All three instructions -/

/-- The frame of `LIT`, `LUT` and `COPY` at a state of the loop: an instruction commits (the three registers move together,
by 1 to 17 bytes of output, its own length of stream and one instruction, and no byte of O outside the appended ones
changes) or halts on an error with its `CURSOR`, `OUT_LEN`, `INSN_COUNT` and O unchanged (R57, R97, R185, R190). -/
def Obligations.InstructionCommitsOrHaltsWithoutEffect : Prop :=
  ∀ (i : Instr) (s t : State), i.wellFormed = true → s.outLen.toNat < s.declLen.toNat →
    s.cursor.toNat < s.streamLen.toNat → exec i s = .next t →
    (∃ k, 1 ≤ k ∧ k ≤ 17 ∧ CommittedBy k (instrLength i.opcodeByte) s t ∧
      t.cursor.toNat ≤ s.streamLen.toNat) ∨
    (∃ e f, (e = .truncatedInstruction ∨ e = .invalidBackReference) ∧ HaltedWith e f s t)

/-- In the decode loop every step answers a next state: no instruction faults or is refused there (R275). The spec marks
R275 as its own inference. -/
def Obligations.LoopNeverStops : Prop :=
  ∀ s : State, s.inputs = [] → InLoop s → ∃ t, step s = .next t

/-- A loop step depends on the stream only through the bytes of the instruction it runs: the opcode byte at `CURSOR` and, for
a 2-byte instruction, the byte after it, below `STREAM_LEN`; a step that terminates depends on none. The header, earlier and
trailing bytes, and bytes beyond the stream have no effect, and the stream is not written (R80, R104, R159). The spec marks
which operation reads which byte (R84) and the independence from trailing bytes (R94) as its own inferences. -/
def Obligations.LoopStepReadsOnlyItsInstruction : Prop :=
  ∀ (s : State) (m : Memory),
    (ReachesInstruction s → ∀ a, s.cursor.toNat ≤ a → a < s.cursor.toNat + instrLength (fetchOpcode s) →
      a < s.streamLen.toNat → Memory.lookup m a = Memory.lookup s.stream a) →
    ∀ t, loopStep s = .next t → t.stream = s.stream ∧ loopStep { s with stream := m } = .next { t with stream := m }

/-- The trace port cannot influence a step: what stands on it changes nothing of the step's outcome (R262). -/
def Obligations.TracePortDoesNotInfluenceTheStep : Prop :=
  ∀ (s : State) (r : Option TraceRecord), step { s with trace := r } = step s

/-- The records of a decode chain: a commit's record has the `CURSOR` and `OUT_LEN` of before it, and the fragment it
names ends at the new `OUT_LEN`; a step of the loop that does not commit presents the terminal record of its registers
(R260, R261). The spec marks the chaining (R263) as its own inference. -/
def Obligations.TraceRecordsChain : Prop :=
  ∀ s t : State, s.inputs = [] → InLoop s → step s = .next t →
    (∃ r, t.trace = some (.insn r) ∧ r.cursor = s.cursor ∧ r.cursor.toNat < t.cursor.toNat ∧
      r.op = streamByte s s.cursor.toNat ∧ r.fragStart = s.outLen ∧
      r.fragStart.toNat + r.fragLen.toNat = t.outLen.toNat ∧ InLoop t) ∨
    (t.trace = some (.terminal (termRecord t)) ∧ t.done = true)

/-! ## START and the header parse (40_control_and_header.md) -/

/-- A write of `CTRL` with START = 1 to an engine that is not BUSY stores bits 1 to 3 of the written value and begins the
decode, with every result register, the warnings and the errors cleared, `done` = 0 and `STREAM_LEN`, `MAX_INSNS` and
both memories as they were (R37, R150). How the write waits is log 7; the header parse is the engine's next move, log 8. -/
def Obligations.StartStoresOptionsAndClearsResults : Prop :=
  ∀ (s : State) (w : Word) (rest : List Input), s.inputs = .host (.portWrite 0x00 4 w) :: rest →
    s.status.state ≠ .busy → w.getLsbD 0 = true →
    ∃ t, step s = .next t ∧
      t.ctrl.strict = w.getLsbD 1 ∧ t.ctrl.trim = w.getLsbD 2 ∧ t.ctrl.limitEn = w.getLsbD 3 ∧
      t.status = ⟨.busy, .none, .none, false, false⟩ ∧ ResultsClear t ∧ t.hdrPending = true ∧ t.done = false ∧
      t.streamLen = s.streamLen ∧ t.maxInsns = s.maxInsns ∧ t.stream = s.stream ∧ t.out = s.out

/-- A stream shorter than 8 bytes raises HEADER_TRUNCATED before any stream byte is read: the result registers keep the
value 0 from START, and no instruction is decoded (R152, R271). -/
def Obligations.ShortHeaderHalts : Prop :=
  ∀ s : State, s.inputs = [] → s.status.state = .busy → s.hdrPending = true → ResultsClear s →
    s.streamLen.toNat < 8 →
    ∃ t, step s = .next t ∧ t.status.state = .error ∧ t.status.term = .error ∧ t.status.err = .headerTruncated ∧
      ResultsClear t ∧ t.done = true ∧
      ∀ m : Memory, step { s with stream := m } = .next { t with stream := m }

/-- The header parse of a stream of 8 bytes or more records the marker bytes and the reserved bytes, byte i of each in
bits 8i+7..8i, flags a reserved byte that is nonzero and a marker that differs from `3A 63 3A 00` in any byte, and takes
the declared length from bytes 4 and 5, big-endian (R45, R46, R153, R154, R155). -/
def Obligations.HeaderParseRecordsItsFields : Prop :=
  ∀ s : State, s.inputs = [] → s.status.state = .busy → s.hdrPending = true → 8 ≤ s.streamLen.toNat →
    ∃ t, step s = .next t ∧
      (∀ i, i < 4 → t.marker.extractLsb' (8 * i) 8 = streamByte s i) ∧
      (∀ i, i < 2 → t.resv.extractLsb' (8 * i) 8 = streamByte s (6 + i)) ∧
      t.declLen.toNat = (streamByte s 4).toNat * 256 + (streamByte s 5).toNat ∧
      (t.status.warnMarker = true ↔
        streamByte s 0 ≠ 0x3A#8 ∨ streamByte s 1 ≠ 0x63#8 ∨ streamByte s 2 ≠ 0x3A#8 ∨ streamByte s 3 ≠ 0x00#8) ∧
      (t.status.warnResv = true ↔ streamByte s 6 ≠ 0x00#8 ∨ streamByte s 7 ≠ 0x00#8)

/-- With `CTRL.STRICT` = 1 a marker mismatch raises MARKER_MISMATCH, and otherwise a reserved-byte mismatch raises
RESERVED_NONZERO, marker first when both fail; `CURSOR` and `OUT_LEN` stay 0, no instruction is decoded, and `DECL_LEN`,
`MARKER`, `RESV` and both warning flags keep what the parse wrote, which is what it writes with `CTRL.STRICT` = 0 (R156,
R279). -/
def Obligations.StrictModeMakesMismatchesFatal : Prop :=
  ∀ (s : State) (marker reserved : Prop), s.inputs = [] → s.status.state = .busy → s.hdrPending = true →
    ResultsClear s → 8 ≤ s.streamLen.toNat → s.ctrl.strict = true →
    (marker ↔ streamByte s 0 ≠ 0x3A#8 ∨ streamByte s 1 ≠ 0x63#8 ∨ streamByte s 2 ≠ 0x3A#8 ∨
      streamByte s 3 ≠ 0x00#8) →
    (reserved ↔ streamByte s 6 ≠ 0x00#8 ∨ streamByte s 7 ≠ 0x00#8) → marker ∨ reserved →
    ∃ t u, step s = .next t ∧ t.status.state = .error ∧ t.status.term = .error ∧ t.done = true ∧
      (marker → t.status.err = .markerMismatch) ∧ (¬marker → t.status.err = .reservedNonzero) ∧
      t.cursor = 0#32 ∧ t.outLen = 0#17 ∧ t.insnCount = 0#16 ∧ t.faultReg = ⟨0#8, 0#8, false⟩ ∧
      (t.status.warnMarker = true ↔ marker) ∧ (t.status.warnResv = true ↔ reserved) ∧
      step { s with ctrl := { s.ctrl with strict := false } } = .next u ∧
      t.declLen = u.declLen ∧ t.marker = u.marker ∧ t.resv = u.resv ∧
      t.status.warnMarker = u.status.warnMarker ∧ t.status.warnResv = u.status.warnResv

/-- A header parse that raises nothing (soft mode, or no mismatch) sets `CURSOR` to 8 with `OUT_LEN` = 0 and
`INSN_COUNT` = 0 from START, the output empty and `DECL_LEN` the length the header declares, and the engine is in the
decode loop (R158). -/
def Obligations.HeaderParseEntersTheLoopAtEight : Prop :=
  ∀ s : State, s.inputs = [] → s.status.state = .busy → s.hdrPending = true → ResultsClear s →
    8 ≤ s.streamLen.toNat →
    (s.ctrl.strict = false ∨
      (streamByte s 0 = 0x3A#8 ∧ streamByte s 1 = 0x63#8 ∧ streamByte s 2 = 0x3A#8 ∧ streamByte s 3 = 0x00#8 ∧
       streamByte s 6 = 0x00#8 ∧ streamByte s 7 = 0x00#8)) →
    ∃ t, step s = .next t ∧ t.cursor = 8#32 ∧ t.outLen = 0#17 ∧ t.insnCount = 0#16 ∧ t.output = [] ∧
      t.declLen.toNat = declaredLength s ∧ InLoop t ∧ ConfigKept s t

/-- The header parse writes no byte of O and reads no stream byte above 7 (R159). -/
def Obligations.HeaderParseReadsOnlyTheHeader : Prop :=
  ∀ (s : State) (m : Memory), (∀ a, a < 8 → Memory.lookup m a = Memory.lookup s.stream a) →
    (headerParse s).out = s.out ∧ headerParse { s with stream := m } = { headerParse s with stream := m }

/-! ## The whole decode (R193) -/

/-- Every decode ends: from every state, with every option and stream, within `DECL_LEN` + 1 loop steps after the header
parse, in DONE or ERROR, having committed at most `DECL_LEN` instructions. The spec marks the bound as its own inference
(R192). That stepping gives `decodeRun` is `SteppingGivesTheDecode`. -/
def Obligations.EveryDecodeEnds : Prop :=
  ∀ (w : Word) (s : State), ∃ t, decodeRun w s = .next t ∧ t.done = true ∧
    t.insnCount.toNat ≤ t.declLen.toNat

/-- What a decode's termination reason says about its output: LENGTH_REACHED at least the declared length and at most 16
bytes more (none with TRIM), INPUT_EXHAUSTED and LIMIT_REACHED a short output, an instruction error a short output and a
header error none. The spec marks this as its own inference (R304, R187). -/
def Obligations.DecodeResultMatchesItsTermination : Prop :=
  ∀ (w : Word) (s t : State), decodeRun w s = .next t →
    (t.status.term = .lengthReached → t.declLen.toNat ≤ t.outLen.toNat ∧ t.outLen.toNat ≤ t.declLen.toNat + 16 ∧
      (w.getLsbD 2 = true → t.outLen.toNat = t.declLen.toNat)) ∧
    (t.status.term = .inputExhausted → t.outLen.toNat < t.declLen.toNat ∧ t.cursor = t.streamLen) ∧
    (t.status.term = .limitReached → t.outLen.toNat < t.declLen.toNat ∧ w.getLsbD 3 = true) ∧
    (t.status.state = .error → t.status.err.ofHeader = false → t.outLen.toNat < t.declLen.toNat) ∧
    (t.status.state = .error → t.status.err.ofHeader = true → t.outLen = 0#17) ∧
    t.output.length = t.outLen.toNat

/-- A decode is a pure function of the stream below `STREAM_LEN`, `STREAM_LEN` and the options: states that agree on them
decode to the same result and output, whatever else they hold, the old bytes of O and the trace port among it (R194). -/
def Obligations.DecodeIsAFunctionOfItsInput : Prop :=
  ∀ (w : Word) (s s' t : State), SameDecodeInput s s' → decodeRun w s = .next t →
    ∃ t', decodeRun w s' = .next t' ∧ decodeResult t' = decodeResult t

/-- In soft mode the marker bytes change nothing of a decode but `MARKER` and `WARN_MARKER`. The spec marks this as its own
inference (R157). -/
def Obligations.SoftModeIgnoresTheMarker : Prop :=
  ∀ (w : Word) (s s' t : State), w.getLsbD 1 = false → s.streamLen = s'.streamLen → s.maxInsns = s'.maxInsns →
    (∀ a, 4 ≤ a → a < s.streamLen.toNat → streamByte s a = streamByte s' a) → decodeRun w s = .next t →
    ∃ t', decodeRun w s' = .next t' ∧
      { decodeResult t' with marker := 0#32, status := { t'.status with warnMarker := false } } =
      { decodeResult t with marker := 0#32, status := { t.status with warnMarker := false } }

/-- A stream made only of literal escapes decodes to its operand bytes. With `DECL_LEN` at least their number it ends
LENGTH_REACHED or INPUT_EXHAUSTED with all of them; with less, the output is the first `DECL_LEN` of them and `CURSOR` stops
behind the last of these (R211), in a decode without strict checks and limit. The spec marks how it ends with less as its
own inference. -/
def Obligations.LiteralStreamDecodesToItsOperands : Prop :=
  ∀ (w : Word) (s : State) (vs : List Byte), LiteralStream s vs → w.getLsbD 1 = false → w.getLsbD 3 = false →
    ∃ t, decodeRun w s = .next t ∧ t.status.state = .done ∧ t.output = vs.take (declaredLength s) ∧
      t.outLen.toNat = min vs.length (declaredLength s) ∧ t.insnCount.toNat = min vs.length (declaredLength s) ∧
      t.cursor.toNat = 8 + 2 * min vs.length (declaredLength s) ∧
      (declaredLength s ≤ vs.length → t.status.term = .lengthReached) ∧
      (vs.length < declaredLength s → t.status.term = .inputExhausted)

/-! ## The host's moves (10_state.md, 20_memory.md) -/

/-- A 32-bit read of the register port at a multiple of 4 returns the register of the map with the bits above its width 0,
START reading 0, and 0 at an unmapped offset; it changes no register and no memory (R32, R33, R35, R40, R50). `STREAM_LEN`
and `CURSOR` are `W_CUR` bits wide and held in 32-bit containers (log 2), whose bits above `W_CUR` are 0 wherever the
invariant holds. How a move waits is log 7, the reply log 9, the silent trace port log 10. -/
def Obligations.PortReadsReturnTheRegisterMap : Prop :=
  ∀ (s : State) (offset : Nat) (rest : List Input), s.inputs = .host (.portRead offset 4) :: rest →
    offset % 4 = 0 →
    ∃ v : Word, step s = .next { s with inputs := rest, trace := none, reply := some (.word v) } ∧
      (offset = 0x00 → v.toNat = 2 * s.ctrl.strict.toNat + 4 * s.ctrl.trim.toNat + 8 * s.ctrl.limitEn.toNat) ∧
      (offset = 0x04 → v.toNat = s.status.state.code.toNat + 4 * s.status.term.code.toNat +
        256 * s.status.err.code.toNat + 65536 * s.status.warnMarker.toNat + 131072 * s.status.warnResv.toNat) ∧
      (offset = 0x08 → v = s.streamLen) ∧ (offset = 0x0C → v.toNat = s.maxInsns.toNat) ∧
      (offset = 0x10 → v.toNat = s.declLen.toNat) ∧ (offset = 0x14 → v = s.marker) ∧
      (offset = 0x18 → v.toNat = s.resv.toNat) ∧ (offset = 0x1C → v = s.cursor) ∧
      (offset = 0x20 → v.toNat = s.outLen.toNat) ∧ (offset = 0x24 → v.toNat = s.insnCount.toNat) ∧
      (offset = 0x28 → v.toNat = s.faultReg.op.toNat + 256 * s.faultReg.next.toNat +
        65536 * s.faultReg.nextValid.toNat) ∧
      (0x2C ≤ offset → v = 0#32) ∧
      (Invariant s → offset = 0x08 ∨ offset = 0x1C → v.toNat < 2 ^ Config.wCur)

/-- Register-port accesses: at an unmapped offset a read returns 0 and a write is ignored, a write to a read-only register
is ignored, and an access of another width or at a misaligned offset is refused (R33). How a move waits is log 7, the reply
log 9, the silent trace port log 10, the refusal's name log 14. -/
def Obligations.PortAccessRules : Prop :=
  ∀ (s : State) (offset width : Nat) (value : Word) (rest : List Input),
    (s.inputs = .host (.portRead offset width) :: rest → width = 4 → offset % 4 = 0 → 0x2C ≤ offset →
      step s = .next { s with inputs := rest, trace := none, reply := some (.word 0#32) }) ∧
    (s.inputs = .host (.portWrite offset width value) :: rest → width = 4 → offset % 4 = 0 →
      offset ≠ 0x00 → offset ≠ 0x08 → offset ≠ 0x0C →
      step s = .next { s with inputs := rest, trace := none }) ∧
    (s.inputs = .host (.portRead offset width) :: rest ∨ s.inputs = .host (.portWrite offset width value) :: rest →
      ¬(width = 4 ∧ offset % 4 = 0) → step s = .refused .portAccess)

/-- While `STATE` = BUSY every host write to the register port is ignored, of `CTRL.START` too (R34). How a move
waits is log 7, the silent trace port log 10. -/
def Obligations.WritesWhileBusyAreIgnored : Prop :=
  ∀ (s : State) (offset : Nat) (value : Word) (rest : List Input),
    s.inputs = .host (.portWrite offset 4 value) :: rest → offset % 4 = 0 → s.status.state = .busy →
    step s = .next { s with inputs := rest, trace := none }

/-- So `CTRL`, `STREAM_LEN` and `MAX_INSNS` are constant for the whole of a decode, and `DECL_LEN`, `MARKER` and `RESV`
from the header parse on: no step from a BUSY state but a reset changes them (R34, R44). -/
def Obligations.ConfigurationIsConstantWhileBusy : Prop :=
  ∀ s t : State, s.status.state = .busy → (∀ rest, s.inputs ≠ .rst :: rest) → step s = .next t →
    ConfigKept s t ∧
    (s.hdrPending = false → t.declLen = s.declLen ∧ t.marker = s.marker ∧ t.resv = s.resv ∧
      t.status.warnMarker = s.status.warnMarker ∧ t.status.warnResv = s.status.warnResv)

/-- What a write of each writable register stores when the engine is not BUSY: the options of `CTRL` without START,
min(v, `STREAM_CAP`) in `STREAM_LEN` (R38), the low 16 bits in `MAX_INSNS` (R32, R39). How a move waits is log 7, the
silent trace port log 10. -/
def Obligations.PortWritesStoreConfiguration : Prop :=
  ∀ (s : State) (offset : Nat) (value : Word) (rest : List Input),
    s.inputs = .host (.portWrite offset 4 value) :: rest → s.status.state ≠ .busy →
    (offset = 0x00 → value.getLsbD 0 = false →
      ∃ c : Ctrl, step s = .next { s with inputs := rest, trace := none, ctrl := c } ∧
        c.strict = value.getLsbD 1 ∧ c.trim = value.getLsbD 2 ∧ c.limitEn = value.getLsbD 3) ∧
    (offset = 0x08 → ∃ t, step s = .next { s with inputs := rest, trace := none, streamLen := t } ∧
      t.toNat = min value.toNat Config.streamCap) ∧
    (offset = 0x0C → ∃ t, step s = .next { s with inputs := rest, trace := none, maxInsns := t } ∧
      t.toNat = value.toNat % 65536)

/-- The host's window on the output buffer: O[a] below `OUT_LEN`, 0 from `OUT_CAP` on, and a host write of O is ignored
(R95). From `OUT_LEN` to `OUT_CAP` the byte is a free value of the model (log 5; R100). How a move waits is log 7, the reply
log 9, the silent trace port log 10. -/
def Obligations.OutputWindowShowsTheOutput : Prop :=
  ∀ (s : State) (a : Nat) (v : Byte) (rest : List Input),
    (s.inputs = .host (.outRead a) :: rest → ∃ b : Byte,
      step s = .next { s with inputs := rest, trace := none, reply := some (.byte b) } ∧
      (Config.outCap ≤ a → b = 0#8) ∧
      (a < Config.outCap → a < s.outLen.toNat → b = outByte s a) ∧
      (a < Config.outCap → s.outLen.toNat ≤ a → b = Config.unspecifiedOut s.outEpoch a)) ∧
    (s.inputs = .host (.outWrite a v) :: rest → step s = .next { s with inputs := rest, trace := none })

/-- A host write of the stream memory stores the byte, silences the trace port (log 10) and changes nothing else; at an
address that does not exist it faults, and below `STREAM_LEN` while BUSY it is refused, since the spec leaves the result of
that unspecified (R54, R106; how the model stops is log 13, how a move waits log 7). -/
def Obligations.HostStreamWrites : Prop :=
  ∀ (s : State) (a : Nat) (v : Byte) (rest : List Input), s.inputs = .host (.streamWrite a v) :: rest →
    (s.status.state = .busy → a < s.streamLen.toNat → step s = .refused .streamWriteWhileBusy) ∧
    (¬(s.status.state = .busy ∧ a < s.streamLen.toNat) → Config.streamCap ≤ a →
      step s = .fault .streamAddress) ∧
    (¬(s.status.state = .busy ∧ a < s.streamLen.toNat) → a < Config.streamCap →
      ∃ m, step s = .next { s with inputs := rest, trace := none, stream := m } ∧
        Memory.lookup m a = some v ∧ ∀ x, x ≠ a → Memory.lookup m x = Memory.lookup s.stream x)

/-- `done` is 1 exactly in DONE and ERROR (R55), and only START and reset clear it (R283); while it is 1 no other move
changes a result register, the status or the decoded output (R101, R189). -/
def Obligations.ResultStaysUntilStartOrReset : Prop :=
  ∀ s t : State, (s.done = true ↔ s.status.state = .done ∨ s.status.state = .error) ∧
    (s.done = true → step s = .next t → endsResult s = false →
      t.done = true ∧ decodeResult t = decodeResult s)

/-- A byte of the decoded output is never written again in its decode, and the output only grows: no step but a START
or a reset changes O below `OUT_LEN` or lowers `OUT_LEN` (R53, R100). -/
def Obligations.OutputIsAppendOnly : Prop :=
  ∀ s t : State, step s = .next t → endsResult s = false →
    s.outLen.toNat ≤ t.outLen.toNat ∧
    ∀ a, a < s.outLen.toNat → Memory.lookup t.out a = Memory.lookup s.out a

/-- The reset input gives every register its reset value 0, IDLE, `done` = 0 and a silent trace port, from every state,
and leaves the stream alone (R300, R301). The contents of O are unspecified from there on: the window returns free
values (R58; log 5). The reset input as one move is log 15. -/
def Obligations.ResetInputClearsEveryRegister : Prop :=
  ∀ (s : State) (rest : List Input), s.inputs = .rst :: rest →
    ∃ t, step s = .next t ∧ ResultsClear t ∧ t.ctrl = ⟨false, false, false⟩ ∧
      t.status = ⟨.idle, .none, .none, false, false⟩ ∧ t.streamLen = 0#32 ∧ t.maxInsns = 0#16 ∧ t.hdrPending = false ∧
      t.trace = none ∧ t.done = false ∧ t.stream = s.stream ∧ t.inputs = rest ∧
      ∀ a, a < Config.outCap → outWindow t a = Config.unspecifiedOut t.outEpoch a

/-! ## Invariants -/

/-- The fields of `STATUS` agree with each other after every step from a state where they do. The spec marks this as its
own inference (R42). -/
def Obligations.StatusFieldsStayConsistent : Prop :=
  ∀ s t : State, s.status.consistent → step s = .next t → t.status.consistent

/-- Every step keeps both memories in canonical form with existing addresses only (R53, R54; the canonical form is the
model's own). -/
def Obligations.MemoriesStayCanonical : Prop :=
  ∀ s t : State, MemoriesOk s → step s = .next t → MemoriesOk t

/-- Every step keeps the invariant: `STATUS` consistent (R42), memories canonical, `STREAM_LEN` and `CURSOR` within
`STREAM_CAP`, the loop's bounds (R59, R191), a finished decode's bounds (R304), clear results before the first decode. The
spec marks these rules as its own inferences. -/
def Obligations.StepKeepsTheInvariant : Prop :=
  ∀ s t : State, Invariant s → step s = .next t → Invariant t

/-- The state right after reset meets the invariant (R58, R300). -/
def Obligations.ResetMeetsTheInvariant : Prop := Invariant State.reset

/-! ## The cycle-level machine (R200 to R205) -/

/-- From CHECK, the cycle-level machine reaches, after the clocks of R204, exactly the state one loop step reaches, and is
at CHECK again or in the halting state that `STATUS` shows (R203; how the latches are held is log 17). -/
def Obligations.CycleMachineRefinesTheLoopStep : Prop :=
  ∀ m : Micro, m.fsm = .check → InLoop m.arch →
    ∃ m', cycles (loopCycles m.arch) m = m' ∧ loopStep m.arch = .next m'.arch ∧
      m'.fsm.engineState = m'.arch.status.state ∧ (m'.arch.status.state = .busy → m'.fsm = .check)

/-- A whole decode on the cycle-level machine, from START to DONE or ERROR, ends with exactly the state of the decode as
a function, whatever its latches hold before START (R203, R193). The separate machine is log 17. -/
def Obligations.CycleMachineRefinesTheDecode : Prop :=
  ∀ (w : Word) (m : Micro), m.arch.status.state ≠ .busy →
    ∃ n m', cycles n (cycleStart w m) = m' ∧ decodeRun w m.arch = .next m'.arch ∧
      (m'.fsm = .done ∨ m'.fsm = .error)

/-! ## The run of the steps (R180, R193) -/

/-- Stepping gives the decode as a function: from a machine that is not BUSY with a START as its one waiting move, at most
`DECL_LEN` + 3 steps (the START, the header parse, the loop steps) reach a state that is done and that is the state
`decodeRun` gives, but that no move waits any more; so its result is the decode's. R193 gives the function; the spec marks
the bound as its own inference (R192). How the write waits is log 7, START and header parse as two moves log 8. -/
def Obligations.SteppingGivesTheDecode : Prop :=
  ∀ (w : Word) (s : State), s.status.state ≠ .busy → s.inputs = [.host (.portWrite 0x00 4 w)] →
    w.getLsbD 0 = true →
    ∃ n t u, steps n s = .next t ∧ decodeRun w s = .next u ∧ t = { u with inputs := [] } ∧ t.done = true ∧
      decodeResult t = decodeResult u ∧ n ≤ t.declLen.toNat + 3
end

