-- ==== Sys2Proof/Laws/State.lean ====
section
/-! SUPPORT. One lemma for each field of each named update of the state, true by unfolding, so that no later proof unfolds a
record update. -/

namespace Sys2Proof.Machine

/-! `terminate` (spec R188) -/

@[simp] theorem terminate_ctrl (r : Term) (s : State) : (terminate r s).ctrl = s.ctrl := rfl

@[simp] theorem terminate_status (r : Term) (s : State) :
    (terminate r s).status = { s.status with state := .done, term := r } := rfl

@[simp] theorem terminate_streamLen (r : Term) (s : State) : (terminate r s).streamLen = s.streamLen := rfl

@[simp] theorem terminate_maxInsns (r : Term) (s : State) : (terminate r s).maxInsns = s.maxInsns := rfl

@[simp] theorem terminate_declLen (r : Term) (s : State) : (terminate r s).declLen = s.declLen := rfl

@[simp] theorem terminate_marker (r : Term) (s : State) : (terminate r s).marker = s.marker := rfl

@[simp] theorem terminate_resv (r : Term) (s : State) : (terminate r s).resv = s.resv := rfl

@[simp] theorem terminate_cursor (r : Term) (s : State) : (terminate r s).cursor = s.cursor := rfl

@[simp] theorem terminate_outLen (r : Term) (s : State) : (terminate r s).outLen = s.outLen := rfl

@[simp] theorem terminate_insnCount (r : Term) (s : State) : (terminate r s).insnCount = s.insnCount := rfl

@[simp] theorem terminate_faultReg (r : Term) (s : State) : (terminate r s).faultReg = s.faultReg := rfl

@[simp] theorem terminate_stream (r : Term) (s : State) : (terminate r s).stream = s.stream := rfl

@[simp] theorem terminate_out (r : Term) (s : State) : (terminate r s).out = s.out := rfl

@[simp] theorem terminate_hdrPending (r : Term) (s : State) : (terminate r s).hdrPending = s.hdrPending := rfl

@[simp] theorem terminate_trace (r : Term) (s : State) :
    (terminate r s).trace = some (.terminal ⟨r, s.status.err, s.cursor, s.outLen, s.insnCount, s.faultReg⟩) := rfl

@[simp] theorem terminate_inputs (r : Term) (s : State) : (terminate r s).inputs = s.inputs := rfl

@[simp] theorem terminate_reply (r : Term) (s : State) : (terminate r s).reply = s.reply := rfl

@[simp] theorem terminate_outEpoch (r : Term) (s : State) : (terminate r s).outEpoch = s.outEpoch := rfl

/-! `raiseError` (spec R276) -/

@[simp] theorem raiseError_ctrl (e : Err) (f : Option FaultInfo) (s : State) :
    (raiseError e f s).ctrl = s.ctrl := rfl

@[simp] theorem raiseError_status (e : Err) (f : Option FaultInfo) (s : State) :
    (raiseError e f s).status = { s.status with state := .error, term := .error, err := e } := rfl

@[simp] theorem raiseError_streamLen (e : Err) (f : Option FaultInfo) (s : State) :
    (raiseError e f s).streamLen = s.streamLen := rfl

@[simp] theorem raiseError_maxInsns (e : Err) (f : Option FaultInfo) (s : State) :
    (raiseError e f s).maxInsns = s.maxInsns := rfl

@[simp] theorem raiseError_declLen (e : Err) (f : Option FaultInfo) (s : State) :
    (raiseError e f s).declLen = s.declLen := rfl

@[simp] theorem raiseError_marker (e : Err) (f : Option FaultInfo) (s : State) :
    (raiseError e f s).marker = s.marker := rfl

@[simp] theorem raiseError_resv (e : Err) (f : Option FaultInfo) (s : State) :
    (raiseError e f s).resv = s.resv := rfl

@[simp] theorem raiseError_cursor (e : Err) (f : Option FaultInfo) (s : State) :
    (raiseError e f s).cursor = s.cursor := rfl

@[simp] theorem raiseError_outLen (e : Err) (f : Option FaultInfo) (s : State) :
    (raiseError e f s).outLen = s.outLen := rfl

@[simp] theorem raiseError_insnCount (e : Err) (f : Option FaultInfo) (s : State) :
    (raiseError e f s).insnCount = s.insnCount := rfl

@[simp] theorem raiseError_faultReg (e : Err) (f : Option FaultInfo) (s : State) :
    (raiseError e f s).faultReg = f.getD s.faultReg := rfl

@[simp] theorem raiseError_stream (e : Err) (f : Option FaultInfo) (s : State) :
    (raiseError e f s).stream = s.stream := rfl

@[simp] theorem raiseError_out (e : Err) (f : Option FaultInfo) (s : State) :
    (raiseError e f s).out = s.out := rfl

@[simp] theorem raiseError_hdrPending (e : Err) (f : Option FaultInfo) (s : State) :
    (raiseError e f s).hdrPending = s.hdrPending := rfl

@[simp] theorem raiseError_trace (e : Err) (f : Option FaultInfo) (s : State) :
    (raiseError e f s).trace = some (.terminal ⟨.error, e, s.cursor, s.outLen, s.insnCount, f.getD s.faultReg⟩) := rfl

@[simp] theorem raiseError_inputs (e : Err) (f : Option FaultInfo) (s : State) :
    (raiseError e f s).inputs = s.inputs := rfl

@[simp] theorem raiseError_reply (e : Err) (f : Option FaultInfo) (s : State) :
    (raiseError e f s).reply = s.reply := rfl

@[simp] theorem raiseError_outEpoch (e : Err) (f : Option FaultInfo) (s : State) :
    (raiseError e f s).outEpoch = s.outEpoch := rfl

/-! `commit` (spec R97) -/

@[simp] theorem commit_ctrl (adv : Nat) (r : InsnRecord) (s : State) : (commit adv r s).ctrl = s.ctrl := rfl

@[simp] theorem commit_status (adv : Nat) (r : InsnRecord) (s : State) : (commit adv r s).status = s.status := rfl

@[simp] theorem commit_streamLen (adv : Nat) (r : InsnRecord) (s : State) :
    (commit adv r s).streamLen = s.streamLen := rfl

@[simp] theorem commit_maxInsns (adv : Nat) (r : InsnRecord) (s : State) : (commit adv r s).maxInsns = s.maxInsns := rfl

@[simp] theorem commit_declLen (adv : Nat) (r : InsnRecord) (s : State) : (commit adv r s).declLen = s.declLen := rfl

@[simp] theorem commit_marker (adv : Nat) (r : InsnRecord) (s : State) : (commit adv r s).marker = s.marker := rfl

@[simp] theorem commit_resv (adv : Nat) (r : InsnRecord) (s : State) : (commit adv r s).resv = s.resv := rfl

@[simp] theorem commit_cursor (adv : Nat) (r : InsnRecord) (s : State) :
    (commit adv r s).cursor = s.cursor + BitVec.ofNat 32 adv := rfl

@[simp] theorem commit_outLen (adv : Nat) (r : InsnRecord) (s : State) :
    (commit adv r s).outLen = s.outLen + r.fragLen.setWidth 17 := rfl

@[simp] theorem commit_insnCount (adv : Nat) (r : InsnRecord) (s : State) :
    (commit adv r s).insnCount = s.insnCount + 1#16 := rfl

@[simp] theorem commit_faultReg (adv : Nat) (r : InsnRecord) (s : State) : (commit adv r s).faultReg = s.faultReg := rfl

@[simp] theorem commit_stream (adv : Nat) (r : InsnRecord) (s : State) : (commit adv r s).stream = s.stream := rfl

@[simp] theorem commit_out (adv : Nat) (r : InsnRecord) (s : State) : (commit adv r s).out = s.out := rfl

@[simp] theorem commit_hdrPending (adv : Nat) (r : InsnRecord) (s : State) :
    (commit adv r s).hdrPending = s.hdrPending := rfl

@[simp] theorem commit_trace (adv : Nat) (r : InsnRecord) (s : State) :
    (commit adv r s).trace = some (.insn r) := rfl

@[simp] theorem commit_inputs (adv : Nat) (r : InsnRecord) (s : State) : (commit adv r s).inputs = s.inputs := rfl

@[simp] theorem commit_reply (adv : Nat) (r : InsnRecord) (s : State) : (commit adv r s).reply = s.reply := rfl

@[simp] theorem commit_outEpoch (adv : Nat) (r : InsnRecord) (s : State) : (commit adv r s).outEpoch = s.outEpoch := rfl

/-! `startCommand` (spec R150) -/

@[simp] theorem startCommand_ctrl (w : Word) (s : State) : (startCommand w s).ctrl = ctrlOptions w := rfl

@[simp] theorem startCommand_status (w : Word) (s : State) :
    (startCommand w s).status = ⟨.busy, .none, .none, false, false⟩ := rfl

@[simp] theorem startCommand_streamLen (w : Word) (s : State) : (startCommand w s).streamLen = s.streamLen := rfl

@[simp] theorem startCommand_maxInsns (w : Word) (s : State) : (startCommand w s).maxInsns = s.maxInsns := rfl

@[simp] theorem startCommand_declLen (w : Word) (s : State) : (startCommand w s).declLen = 0#16 := rfl

@[simp] theorem startCommand_marker (w : Word) (s : State) : (startCommand w s).marker = 0#32 := rfl

@[simp] theorem startCommand_resv (w : Word) (s : State) : (startCommand w s).resv = 0#16 := rfl

@[simp] theorem startCommand_cursor (w : Word) (s : State) : (startCommand w s).cursor = 0#32 := rfl

@[simp] theorem startCommand_outLen (w : Word) (s : State) : (startCommand w s).outLen = 0#17 := rfl

@[simp] theorem startCommand_insnCount (w : Word) (s : State) : (startCommand w s).insnCount = 0#16 := rfl

@[simp] theorem startCommand_faultReg (w : Word) (s : State) : (startCommand w s).faultReg = ⟨0#8, 0#8, false⟩ := rfl

@[simp] theorem startCommand_stream (w : Word) (s : State) : (startCommand w s).stream = s.stream := rfl

@[simp] theorem startCommand_out (w : Word) (s : State) : (startCommand w s).out = s.out := rfl

@[simp] theorem startCommand_hdrPending (w : Word) (s : State) : (startCommand w s).hdrPending = true := rfl

@[simp] theorem startCommand_trace (w : Word) (s : State) : (startCommand w s).trace = none := rfl

@[simp] theorem startCommand_inputs (w : Word) (s : State) : (startCommand w s).inputs = s.inputs := rfl

@[simp] theorem startCommand_reply (w : Word) (s : State) : (startCommand w s).reply = s.reply := rfl

@[simp] theorem startCommand_outEpoch (w : Word) (s : State) : (startCommand w s).outEpoch = s.outEpoch + 1 := rfl

/-! `headerLoad` (spec R151) -/

@[simp] theorem headerLoad_ctrl (b0 b1 b2 b3 b4 b5 b6 b7 : Byte) (s : State) :
    (headerLoad b0 b1 b2 b3 b4 b5 b6 b7 s).ctrl = s.ctrl := rfl

@[simp] theorem headerLoad_status (b0 b1 b2 b3 b4 b5 b6 b7 : Byte) (s : State) :
    (headerLoad b0 b1 b2 b3 b4 b5 b6 b7 s).status = { s.status with warnMarker := markerDiffers b0 b1 b2 b3, warnResv := reservedDiffers b6 b7 } := rfl

@[simp] theorem headerLoad_streamLen (b0 b1 b2 b3 b4 b5 b6 b7 : Byte) (s : State) :
    (headerLoad b0 b1 b2 b3 b4 b5 b6 b7 s).streamLen = s.streamLen := rfl

@[simp] theorem headerLoad_maxInsns (b0 b1 b2 b3 b4 b5 b6 b7 : Byte) (s : State) :
    (headerLoad b0 b1 b2 b3 b4 b5 b6 b7 s).maxInsns = s.maxInsns := rfl

@[simp] theorem headerLoad_declLen (b0 b1 b2 b3 b4 b5 b6 b7 : Byte) (s : State) :
    (headerLoad b0 b1 b2 b3 b4 b5 b6 b7 s).declLen = b4 ++ b5 := rfl

@[simp] theorem headerLoad_marker (b0 b1 b2 b3 b4 b5 b6 b7 : Byte) (s : State) :
    (headerLoad b0 b1 b2 b3 b4 b5 b6 b7 s).marker = b3 ++ b2 ++ b1 ++ b0 := rfl

@[simp] theorem headerLoad_resv (b0 b1 b2 b3 b4 b5 b6 b7 : Byte) (s : State) :
    (headerLoad b0 b1 b2 b3 b4 b5 b6 b7 s).resv = b7 ++ b6 := rfl

@[simp] theorem headerLoad_cursor (b0 b1 b2 b3 b4 b5 b6 b7 : Byte) (s : State) :
    (headerLoad b0 b1 b2 b3 b4 b5 b6 b7 s).cursor = s.cursor := rfl

@[simp] theorem headerLoad_outLen (b0 b1 b2 b3 b4 b5 b6 b7 : Byte) (s : State) :
    (headerLoad b0 b1 b2 b3 b4 b5 b6 b7 s).outLen = s.outLen := rfl

@[simp] theorem headerLoad_insnCount (b0 b1 b2 b3 b4 b5 b6 b7 : Byte) (s : State) :
    (headerLoad b0 b1 b2 b3 b4 b5 b6 b7 s).insnCount = s.insnCount := rfl

@[simp] theorem headerLoad_faultReg (b0 b1 b2 b3 b4 b5 b6 b7 : Byte) (s : State) :
    (headerLoad b0 b1 b2 b3 b4 b5 b6 b7 s).faultReg = s.faultReg := rfl

@[simp] theorem headerLoad_stream (b0 b1 b2 b3 b4 b5 b6 b7 : Byte) (s : State) :
    (headerLoad b0 b1 b2 b3 b4 b5 b6 b7 s).stream = s.stream := rfl

@[simp] theorem headerLoad_out (b0 b1 b2 b3 b4 b5 b6 b7 : Byte) (s : State) :
    (headerLoad b0 b1 b2 b3 b4 b5 b6 b7 s).out = s.out := rfl

@[simp] theorem headerLoad_hdrPending (b0 b1 b2 b3 b4 b5 b6 b7 : Byte) (s : State) :
    (headerLoad b0 b1 b2 b3 b4 b5 b6 b7 s).hdrPending = false := rfl

@[simp] theorem headerLoad_trace (b0 b1 b2 b3 b4 b5 b6 b7 : Byte) (s : State) :
    (headerLoad b0 b1 b2 b3 b4 b5 b6 b7 s).trace = none := rfl

@[simp] theorem headerLoad_inputs (b0 b1 b2 b3 b4 b5 b6 b7 : Byte) (s : State) :
    (headerLoad b0 b1 b2 b3 b4 b5 b6 b7 s).inputs = s.inputs := rfl

@[simp] theorem headerLoad_reply (b0 b1 b2 b3 b4 b5 b6 b7 : Byte) (s : State) :
    (headerLoad b0 b1 b2 b3 b4 b5 b6 b7 s).reply = s.reply := rfl

@[simp] theorem headerLoad_outEpoch (b0 b1 b2 b3 b4 b5 b6 b7 : Byte) (s : State) :
    (headerLoad b0 b1 b2 b3 b4 b5 b6 b7 s).outEpoch = s.outEpoch := rfl

/-! `resetStep` (spec R300, R301) -/

@[simp] theorem resetStep_ctrl (s : State) : (resetStep s).ctrl = State.reset.ctrl := rfl

@[simp] theorem resetStep_status (s : State) : (resetStep s).status = State.reset.status := rfl

@[simp] theorem resetStep_streamLen (s : State) : (resetStep s).streamLen = State.reset.streamLen := rfl

@[simp] theorem resetStep_maxInsns (s : State) : (resetStep s).maxInsns = State.reset.maxInsns := rfl

@[simp] theorem resetStep_declLen (s : State) : (resetStep s).declLen = State.reset.declLen := rfl

@[simp] theorem resetStep_marker (s : State) : (resetStep s).marker = State.reset.marker := rfl

@[simp] theorem resetStep_resv (s : State) : (resetStep s).resv = State.reset.resv := rfl

@[simp] theorem resetStep_cursor (s : State) : (resetStep s).cursor = State.reset.cursor := rfl

@[simp] theorem resetStep_outLen (s : State) : (resetStep s).outLen = State.reset.outLen := rfl

@[simp] theorem resetStep_insnCount (s : State) : (resetStep s).insnCount = State.reset.insnCount := rfl

@[simp] theorem resetStep_faultReg (s : State) : (resetStep s).faultReg = State.reset.faultReg := rfl

@[simp] theorem resetStep_stream (s : State) : (resetStep s).stream = s.stream := rfl

@[simp] theorem resetStep_out (s : State) : (resetStep s).out = State.reset.out := rfl

@[simp] theorem resetStep_hdrPending (s : State) : (resetStep s).hdrPending = State.reset.hdrPending := rfl

@[simp] theorem resetStep_trace (s : State) : (resetStep s).trace = State.reset.trace := rfl

@[simp] theorem resetStep_inputs (s : State) : (resetStep s).inputs = s.inputs := rfl

@[simp] theorem resetStep_reply (s : State) : (resetStep s).reply = s.reply := rfl

@[simp] theorem resetStep_outEpoch (s : State) : (resetStep s).outEpoch = s.outEpoch + 1 := rfl

/-! `storeOut` (spec R201) -/

@[simp] theorem storeOut_ctrl (a : BitVec 17) (v : Byte) (s : State) : (storeOut a v s).ctrl = s.ctrl := rfl

@[simp] theorem storeOut_status (a : BitVec 17) (v : Byte) (s : State) : (storeOut a v s).status = s.status := rfl

@[simp] theorem storeOut_streamLen (a : BitVec 17) (v : Byte) (s : State) :
    (storeOut a v s).streamLen = s.streamLen := rfl

@[simp] theorem storeOut_maxInsns (a : BitVec 17) (v : Byte) (s : State) : (storeOut a v s).maxInsns = s.maxInsns := rfl

@[simp] theorem storeOut_declLen (a : BitVec 17) (v : Byte) (s : State) : (storeOut a v s).declLen = s.declLen := rfl

@[simp] theorem storeOut_marker (a : BitVec 17) (v : Byte) (s : State) : (storeOut a v s).marker = s.marker := rfl

@[simp] theorem storeOut_resv (a : BitVec 17) (v : Byte) (s : State) : (storeOut a v s).resv = s.resv := rfl

@[simp] theorem storeOut_cursor (a : BitVec 17) (v : Byte) (s : State) : (storeOut a v s).cursor = s.cursor := rfl

@[simp] theorem storeOut_outLen (a : BitVec 17) (v : Byte) (s : State) : (storeOut a v s).outLen = s.outLen := rfl

@[simp] theorem storeOut_insnCount (a : BitVec 17) (v : Byte) (s : State) :
    (storeOut a v s).insnCount = s.insnCount := rfl

@[simp] theorem storeOut_faultReg (a : BitVec 17) (v : Byte) (s : State) : (storeOut a v s).faultReg = s.faultReg := rfl

@[simp] theorem storeOut_stream (a : BitVec 17) (v : Byte) (s : State) : (storeOut a v s).stream = s.stream := rfl

@[simp] theorem storeOut_out (a : BitVec 17) (v : Byte) (s : State) :
    (storeOut a v s).out = Memory.write s.out a.toNat v := rfl

@[simp] theorem storeOut_hdrPending (a : BitVec 17) (v : Byte) (s : State) :
    (storeOut a v s).hdrPending = s.hdrPending := rfl

@[simp] theorem storeOut_trace (a : BitVec 17) (v : Byte) (s : State) : (storeOut a v s).trace = s.trace := rfl

@[simp] theorem storeOut_inputs (a : BitVec 17) (v : Byte) (s : State) : (storeOut a v s).inputs = s.inputs := rfl

@[simp] theorem storeOut_reply (a : BitVec 17) (v : Byte) (s : State) : (storeOut a v s).reply = s.reply := rfl

@[simp] theorem storeOut_outEpoch (a : BitVec 17) (v : Byte) (s : State) : (storeOut a v s).outEpoch = s.outEpoch := rfl

/-! `writeStreamLen` (spec R38) -/

@[simp] theorem writeStreamLen_ctrl (w : Word) (s : State) : (writeStreamLen w s).ctrl = s.ctrl := rfl

@[simp] theorem writeStreamLen_status (w : Word) (s : State) : (writeStreamLen w s).status = s.status := rfl

@[simp] theorem writeStreamLen_streamLen (w : Word) (s : State) :
    (writeStreamLen w s).streamLen = BitVec.ofNat 32 (min w.toNat Config.streamCap) := rfl

@[simp] theorem writeStreamLen_maxInsns (w : Word) (s : State) : (writeStreamLen w s).maxInsns = s.maxInsns := rfl

@[simp] theorem writeStreamLen_declLen (w : Word) (s : State) : (writeStreamLen w s).declLen = s.declLen := rfl

@[simp] theorem writeStreamLen_marker (w : Word) (s : State) : (writeStreamLen w s).marker = s.marker := rfl

@[simp] theorem writeStreamLen_resv (w : Word) (s : State) : (writeStreamLen w s).resv = s.resv := rfl

@[simp] theorem writeStreamLen_cursor (w : Word) (s : State) : (writeStreamLen w s).cursor = s.cursor := rfl

@[simp] theorem writeStreamLen_outLen (w : Word) (s : State) : (writeStreamLen w s).outLen = s.outLen := rfl

@[simp] theorem writeStreamLen_insnCount (w : Word) (s : State) : (writeStreamLen w s).insnCount = s.insnCount := rfl

@[simp] theorem writeStreamLen_faultReg (w : Word) (s : State) : (writeStreamLen w s).faultReg = s.faultReg := rfl

@[simp] theorem writeStreamLen_stream (w : Word) (s : State) : (writeStreamLen w s).stream = s.stream := rfl

@[simp] theorem writeStreamLen_out (w : Word) (s : State) : (writeStreamLen w s).out = s.out := rfl

@[simp] theorem writeStreamLen_hdrPending (w : Word) (s : State) : (writeStreamLen w s).hdrPending = s.hdrPending := rfl

@[simp] theorem writeStreamLen_trace (w : Word) (s : State) : (writeStreamLen w s).trace = s.trace := rfl

@[simp] theorem writeStreamLen_inputs (w : Word) (s : State) : (writeStreamLen w s).inputs = s.inputs := rfl

@[simp] theorem writeStreamLen_reply (w : Word) (s : State) : (writeStreamLen w s).reply = s.reply := rfl

@[simp] theorem writeStreamLen_outEpoch (w : Word) (s : State) : (writeStreamLen w s).outEpoch = s.outEpoch := rfl

/-! `writeMaxInsns` (spec R39) -/

@[simp] theorem writeMaxInsns_ctrl (w : Word) (s : State) : (writeMaxInsns w s).ctrl = s.ctrl := rfl

@[simp] theorem writeMaxInsns_status (w : Word) (s : State) : (writeMaxInsns w s).status = s.status := rfl

@[simp] theorem writeMaxInsns_streamLen (w : Word) (s : State) : (writeMaxInsns w s).streamLen = s.streamLen := rfl

@[simp] theorem writeMaxInsns_maxInsns (w : Word) (s : State) : (writeMaxInsns w s).maxInsns = w.setWidth 16 := rfl

@[simp] theorem writeMaxInsns_declLen (w : Word) (s : State) : (writeMaxInsns w s).declLen = s.declLen := rfl

@[simp] theorem writeMaxInsns_marker (w : Word) (s : State) : (writeMaxInsns w s).marker = s.marker := rfl

@[simp] theorem writeMaxInsns_resv (w : Word) (s : State) : (writeMaxInsns w s).resv = s.resv := rfl

@[simp] theorem writeMaxInsns_cursor (w : Word) (s : State) : (writeMaxInsns w s).cursor = s.cursor := rfl

@[simp] theorem writeMaxInsns_outLen (w : Word) (s : State) : (writeMaxInsns w s).outLen = s.outLen := rfl

@[simp] theorem writeMaxInsns_insnCount (w : Word) (s : State) : (writeMaxInsns w s).insnCount = s.insnCount := rfl

@[simp] theorem writeMaxInsns_faultReg (w : Word) (s : State) : (writeMaxInsns w s).faultReg = s.faultReg := rfl

@[simp] theorem writeMaxInsns_stream (w : Word) (s : State) : (writeMaxInsns w s).stream = s.stream := rfl

@[simp] theorem writeMaxInsns_out (w : Word) (s : State) : (writeMaxInsns w s).out = s.out := rfl

@[simp] theorem writeMaxInsns_hdrPending (w : Word) (s : State) : (writeMaxInsns w s).hdrPending = s.hdrPending := rfl

@[simp] theorem writeMaxInsns_trace (w : Word) (s : State) : (writeMaxInsns w s).trace = s.trace := rfl

@[simp] theorem writeMaxInsns_inputs (w : Word) (s : State) : (writeMaxInsns w s).inputs = s.inputs := rfl

@[simp] theorem writeMaxInsns_reply (w : Word) (s : State) : (writeMaxInsns w s).reply = s.reply := rfl

@[simp] theorem writeMaxInsns_outEpoch (w : Word) (s : State) : (writeMaxInsns w s).outEpoch = s.outEpoch := rfl

end Sys2Proof.Machine
end

