-- ==== Sys2Proof/Laws/Memory.lean ====
section
/-! SUPPORT. The laws of the byte memory: a read after a write, and every write keeps the canonical form. -/

namespace Sys2Proof.Machine

@[simp] theorem lookup_nil (x : Nat) : Memory.lookup [] x = none := rfl

theorem lookup_cons (a : Nat) (v : Byte) (m : Memory) (x : Nat) :
    Memory.lookup ((a, v) :: m) x = if x = a then some v else Memory.lookup m x := rfl

@[simp] theorem lookup_write_same (m : Memory) (x : Nat) (v : Byte) :
    Memory.lookup (Memory.write m x v) x = some v := by
  induction m with
  | nil => simp [Memory.write, Memory.lookup]
  | cons c m ih =>
    obtain ⟨a, w⟩ := c
    simp only [Memory.write]
    split
    · simp [Memory.lookup]
    · split
      · simp [Memory.lookup]
      · next h => simp [Memory.lookup, h, ih]

theorem lookup_write_other (m : Memory) {x y : Nat} (v : Byte) (h : y ≠ x) :
    Memory.lookup (Memory.write m x v) y = Memory.lookup m y := by
  induction m with
  | nil => simp [Memory.write, Memory.lookup, h]
  | cons c m ih =>
    obtain ⟨a, w⟩ := c
    simp only [Memory.write]
    split
    · simp [Memory.lookup, h]
    · split
      · next hx => subst hx; simp [Memory.lookup, h]
      · simp only [lookup_cons, ih]

/-- A read after a write, in one equation. -/
theorem lookup_write (m : Memory) (x y : Nat) (v : Byte) :
    Memory.lookup (Memory.write m x v) y = if y = x then some v else Memory.lookup m y := by
  split
  · next h => subst h; simp
  · next h => exact lookup_write_other m v h

/-- A list of writes leaves every address outside its range alone. -/
theorem lookup_writeBytes_outside (vs : List Byte) (m : Memory) (x y : Nat)
    (h : y < x ∨ x + vs.length ≤ y) :
    Memory.lookup (Memory.writeBytes m x vs) y = Memory.lookup m y := by
  induction vs generalizing m x with
  | nil => rfl
  | cons v vs ih =>
    simp only [Memory.writeBytes, List.length_cons] at *
    rw [ih (Memory.write m x v) (x + 1) (by omega), lookup_write_other m v (by omega)]

/-- The i-th byte of a list of writes is read back at the i-th address. -/
theorem lookup_writeBytes_inside (vs : List Byte) (m : Memory) (x i : Nat) (h : i < vs.length) :
    Memory.lookup (Memory.writeBytes m x vs) (x + i) = some vs[i] := by
  induction vs generalizing m x i with
  | nil => simp at h
  | cons v vs ih =>
    simp only [Memory.writeBytes]
    cases i with
    | zero => rw [lookup_writeBytes_outside vs _ _ _ (by omega)]; simp
    | succ i =>
      have h' : i < vs.length := by simpa using h
      have := ih (Memory.write m x v) (x + 1) i h'
      simpa [Nat.add_assoc, Nat.add_comm 1 i] using this

/-- The addresses of a written memory are the old ones and the written one. -/
theorem mem_write {m : Memory} {x : Nat} {v : Byte} {c : Host.Cell} (h : c ∈ Memory.write m x v) :
    c = (x, v) ∨ c ∈ m := by
  induction m with
  | nil => simpa [Memory.write] using h
  | cons d m ih =>
    obtain ⟨a, w⟩ := d
    simp only [Memory.write] at h
    split at h
    · simpa using h
    · split at h
      · simp only [List.mem_cons] at h ⊢
        tauto
      · simp only [List.mem_cons] at h ⊢
        rcases h with h | h
        · tauto
        · rcases ih h with h | h <;> tauto

theorem wf_cons (a : Nat) (v : Byte) (m : Memory) :
    Memory.wf ((a, v) :: m) = true ↔ (∀ c ∈ m.head?, a < c.1) ∧ Memory.wf m = true := by
  cases m with
  | nil => simp [Memory.wf]
  | cons d m => obtain ⟨b, w⟩ := d; simp [Memory.wf]

/-- The head of a written memory is the old head or the written cell. -/
theorem head_write (m : Memory) (x : Nat) (v : Byte) :
    ∀ c ∈ (Memory.write m x v).head?, c.1 = x ∨ c ∈ m.head? := by
  cases m with
  | nil => simp [Memory.write]
  | cons d m =>
    obtain ⟨a, w⟩ := d
    intro c hc
    simp only [Memory.write] at hc
    split at hc
    · left; simp at hc; simp [← hc]
    · split at hc
      · next h => left; simp at hc; simp [← hc, h]
      · right; simpa using hc

/-- A write keeps the canonical form. -/
theorem wf_write (m : Memory) (x : Nat) (v : Byte) (h : Memory.wf m = true) :
    Memory.wf (Memory.write m x v) = true := by
  induction m with
  | nil => rfl
  | cons d m ih =>
    obtain ⟨a, w⟩ := d
    have hm := (wf_cons a w m).1 h
    simp only [Memory.write]
    split
    · next hx => exact (wf_cons _ _ _).2 ⟨by simpa using hx, h⟩
    · split
      · next hx => exact (wf_cons _ _ _).2 ⟨hx ▸ hm.1, hm.2⟩
      · next hlt hne =>
        refine (wf_cons _ _ _).2 ⟨?_, ih hm.2⟩
        intro c hc
        rcases head_write m x v c hc with h1 | h1
        · omega
        · exact hm.1 c h1

/-- A list of writes keeps the canonical form. -/
theorem wf_writeBytes (vs : List Byte) (m : Memory) (x : Nat) (h : Memory.wf m = true) :
    Memory.wf (Memory.writeBytes m x vs) = true := by
  induction vs generalizing m x with
  | nil => exact h
  | cons v vs ih => exact ih _ _ (wf_write m x v h)

/-- The addresses of a memory after a list of writes stay below a bound that covers both. -/
theorem below_writeBytes (vs : List Byte) (m : Memory) (x n : Nat) (h : ∀ c ∈ m, c.1 < n)
    (hx : x + vs.length ≤ n) : ∀ c ∈ Memory.writeBytes m x vs, c.1 < n := by
  induction vs generalizing m x with
  | nil => exact h
  | cons v vs ih =>
    simp only [List.length_cons] at hx
    refine ih (Memory.write m x v) (x + 1) ?_ (by omega)
    intro c hc
    rcases mem_write hc with h1 | h1
    · subst h1; simp; omega
    · exact h c h1

/-- Below the least listed address nothing is listed. -/
theorem lookup_none_of_lt (m : Memory) (x : Nat) (h : ∀ c ∈ m, x < c.1) : Memory.lookup m x = none := by
  induction m with
  | nil => rfl
  | cons d m ih =>
    obtain ⟨a, w⟩ := d
    have := h (a, w) (by simp)
    rw [lookup_cons, if_neg (by simp at this; omega)]
    exact ih (fun c hc => h c (by simp [hc]))

/-- In canonical form every later address is above the first. -/
theorem wf_head_lt (a : Nat) (v : Byte) (m : Memory) (h : Memory.wf ((a, v) :: m) = true) :
    ∀ c ∈ m, a < c.1 := by
  induction m generalizing a v with
  | nil => simp
  | cons d m ih =>
    obtain ⟨b, w⟩ := d
    have h1 := (wf_cons a v _).1 h
    have hab : a < b := by simpa using h1.1
    intro c hc
    rcases List.mem_cons.1 hc with rfl | hc
    · exact hab
    · exact Nat.lt_trans hab (ih b w h1.2 c hc)

/-- Canonical memories that read alike are equal data. -/
theorem memory_ext (m m' : Memory) (h : Memory.wf m = true) (h' : Memory.wf m' = true)
    (hl : ∀ a, Memory.lookup m a = Memory.lookup m' a) : m = m' := by
  induction m generalizing m' with
  | nil =>
    cases m' with
    | nil => rfl
    | cons d m' => obtain ⟨b, w⟩ := d; simpa [Memory.lookup] using hl b
  | cons d m ih =>
    obtain ⟨a, v⟩ := d
    cases m' with
    | nil => simpa [Memory.lookup] using hl a
    | cons d' m' =>
      obtain ⟨b, w⟩ := d'
      have hlow := wf_head_lt a v m h
      have hlow' := wf_head_lt b w m' h'
      have hab : a = b := by
        rcases Nat.lt_trichotomy a b with hlt | heq | hgt
        · have := hl a
          rw [lookup_cons, if_pos rfl, lookup_cons, if_neg (by omega),
            lookup_none_of_lt m' a (fun c hc => by have := hlow' c hc; omega)] at this
          simp at this
        · exact heq
        · have := hl b
          rw [lookup_cons, if_neg (by omega), lookup_cons, if_pos rfl,
            lookup_none_of_lt m b (fun c hc => by have := hlow c hc; omega)] at this
          simp at this
      subst hab
      have hv : v = w := by simpa [lookup_cons] using hl a
      subst hv
      have htail : m = m' := by
        refine ih m' ((wf_cons a v m).1 h).2 ((wf_cons a v m').1 h').2 (fun x => ?_)
        have hx := hl x
        simp only [lookup_cons] at hx
        by_cases hxa : x = a
        · subst hxa
          rw [lookup_none_of_lt m x hlow, lookup_none_of_lt m' x hlow']
        · simpa [hxa] using hx
      rw [htail]

end Sys2Proof.Machine
end

