-- ==== Sys2Proof/Laws/Ops.lean ====
section
/-! SUPPORT. One lemma for each shared operation that says once everything it can do. -/

namespace Sys2Proof.Machine

theorem outCap_ge : 65551 ≤ Config.outCap := Nat.le_add_left _ _

theorem streamCap_ge : 8 ≤ Config.streamCap := Nat.le_max_left _ _

theorem streamCap_lt : Config.streamCap < 2 ^ 32 := by simp only [Config.streamCap]; omega

/-- `W_CUR` is wide enough for every number up to `STREAM_CAP` (spec R11). -/
theorem streamCap_lt_wCur : Config.streamCap < 2 ^ Config.wCur := Nat.lt_size_self _

/-- `W_CUR` is the least such width (spec R11). -/
theorem wCur_least (w : Nat) (h : Config.streamCap < 2 ^ w) : Config.wCur ≤ w := Nat.size_le.2 h

/-- `fitsOut` is the bound by `OUT_CAP`. -/
theorem fitsOut_iff (n : Nat) : fitsOut n = true ↔ n ≤ Config.outCap := by
  have := outCap_ge
  simp only [fitsOut, Bool.or_eq_true, decide_eq_true_eq]
  omega

theorem fitsOut_of_le {n : Nat} (h : n ≤ 65551) : fitsOut n = true := by
  have := outCap_ge
  rw [fitsOut_iff]; omega

@[simp] theorem hasNextByte_iff (s : State) :
    hasNextByte s = true ↔ s.cursor.toNat + 1 < s.streamLen.toNat := by simp [hasNextByte]

@[simp] theorem busy_iff (s : State) : s.busy = true ↔ s.status.state = .busy := by simp [State.busy]

theorem done_iff (s : State) : s.done = true ↔ s.status.state = .done ∨ s.status.state = .error := by
  simp [State.done]

theorem spanValid_iff (s : State) (offset : BitVec 12) (length : BitVec 5) :
    spanValid s offset length = true ↔ length.toNat ≤ offset.toNat ∧ offset.toNat ≤ s.outLen.toNat := by
  unfold spanValid copyStart
  rw [Bool.and_eq_true, decide_eq_true_iff, decide_eq_true_iff]
  omega

theorem copyStart_toNat {s : State} {offset : BitVec 12} {length : BitVec 5}
    (h : spanValid s offset length = true) : (copyStart s offset).toNat = s.outLen.toNat - offset.toNat := by
  rw [spanValid_iff] at h
  simp only [copyStart]; omega

theorem copyCount_le (s : State) (length : BitVec 5) : copyCount s length ≤ length.toNat := by
  simp only [copyCount]; split <;> omega

theorem copyCount_lt (s : State) (length : BitVec 5) : copyCount s length < 32 := by
  have := copyCount_le s length
  omega

theorem copyCount_pos {s : State} {length : BitVec 5} (hl : 2 ≤ length.toNat)
    (ho : s.outLen.toNat < s.declLen.toNat) : 1 ≤ copyCount s length := by
  simp only [copyCount]; split <;> omega

@[simp] theorem appendFragment_length (s : State) (src : AppendSource) (k : Nat) :
    (appendFragment s src k).length = k := by simp [appendFragment]

@[simp] theorem appendFragment_get (s : State) (src : AppendSource) (k i : Nat)
    (h : i < (appendFragment s src k).length) : (appendFragment s src k)[i] = appendData s src i := by
  simp [appendFragment]

@[simp] theorem insnRecord_fragLen (s : State) (k : Nat) (i : Instr) :
    (insnRecord s k i).fragLen = BitVec.ofNat 5 k := by cases i <;> rfl

@[simp] theorem insnRecord_fragStart (s : State) (k : Nat) (i : Instr) :
    (insnRecord s k i).fragStart = s.outLen := by cases i <;> rfl

@[simp] theorem insnRecord_cursor (s : State) (k : Nat) (i : Instr) :
    (insnRecord s k i).cursor = s.cursor := by cases i <;> rfl

/-- The commit of k bytes read from `src`, as a state (spec R97). -/
def committedState (s : State) (src : AppendSource) (k adv : Nat) (i : Instr) : State :=
  commit adv (insnRecord s k i)
    { s with out := Memory.writeBytes s.out s.outLen.toNat (appendFragment s src k) }

/-- Everything an append can do: it commits where the output buffer reaches far enough, and faults elsewhere. -/
theorem appendCommit_eq (s : State) (src : AppendSource) (k adv : Nat) (i : Instr) :
    appendCommit (appendFragment s src k) adv (insnRecord s k i) s =
      if s.outLen.toNat + k ≤ Config.outCap then .next (committedState s src k adv i)
      else .fault .outputOverflow := by
  simp only [appendCommit, appendFragment_length]
  by_cases h : s.outLen.toNat + k ≤ Config.outCap
  · rw [if_pos ((fitsOut_iff _).2 h), if_pos h]; rfl
  · rw [if_neg (fun h' => h ((fitsOut_iff _).1 h')), if_neg h]

/-- What a commit in the decode loop leaves in the registers and in memory (spec R97, R190, R195). -/
theorem committedState_spec {s : State} {src : AppendSource} {k adv : Nat} {i : Instr}
    (hk : k < 32) (ho : s.outLen.toNat < 65536) (hc : s.cursor.toNat + adv < 2 ^ 32) :
    CommittedBy k adv s (committedState s src k adv i) ∧
    (∀ j, j < k →
      Memory.lookup (committedState s src k adv i).out (s.outLen.toNat + j) = some (appendData s src j)) ∧
    (committedState s src k adv i).trace = some (.insn (insnRecord s k i)) := by
  refine ⟨⟨?_, ?_, rfl, ?_, ?_⟩, ?_, rfl⟩
  · simp only [committedState, commit_outLen, insnRecord_fragLen, BitVec.toNat_add, BitVec.toNat_setWidth,
      BitVec.toNat_ofNat]
    omega
  · simp only [committedState, commit_cursor, BitVec.toNat_add, BitVec.toNat_ofNat]
    omega
  · intro a ha
    simp only [committedState, commit_out]
    exact lookup_writeBytes_outside _ _ _ _ (by simpa using ha)
  · exact ⟨⟨rfl, rfl, rfl⟩, ⟨rfl, rfl, rfl, rfl, rfl, rfl, rfl, rfl⟩, rfl, rfl⟩
  · intro j hj
    simp only [committedState, commit_out]
    rw [lookup_writeBytes_inside _ _ _ _ (by simpa using hj)]
    simp

/-- An error halt, in the words of the statements (spec R276). -/
theorem raiseError_spec (e : Err) (f : FaultInfo) (s : State) :
    HaltedWith e f s (raiseError e (some f) s) :=
  ⟨rfl, rfl, rfl, rfl, rfl, rfl, ⟨rfl, rfl, rfl⟩, ⟨rfl, rfl, rfl, rfl, rfl, rfl, rfl, rfl⟩, rfl, rfl, rfl, rfl, rfl,
    rfl⟩

/-- A termination, in the words of the statements (spec R188). -/
theorem terminate_spec (r : Term) (s : State) : TerminatedWith r s (terminate r s) :=
  ⟨rfl, rfl, rfl, rfl, rfl, rfl, ⟨rfl, rfl, rfl⟩, ⟨rfl, rfl, rfl, rfl, rfl, rfl, rfl, rfl⟩, rfl, rfl, rfl, rfl, rfl,
    rfl⟩

/-- Everything `LIT` can do (spec R210). -/
theorem execLit_eq (v : Byte) (s : State) :
    execLit v s =
      if s.cursor.toNat + 1 < s.streamLen.toNat then
        (if s.outLen.toNat + 1 ≤ Config.outCap then .next (committedState s (.literal v) 1 2 (.lit v))
         else .fault .outputOverflow)
      else .next (raiseError .truncatedInstruction (some (faultNoNext (.lit v))) s) := by
  simp only [execLit, appendCommit_eq, hasNextByte_iff]

/-- Everything `LUT` can do (spec R220). -/
theorem execLut_eq (i : Fin 60) (s : State) :
    execLut i s =
      if s.outLen.toNat + 1 ≤ Config.outCap then .next (committedState s (.table i) 1 1 (.lut i))
      else .fault .outputOverflow := by
  simp only [execLut, appendCommit_eq]

/-- Everything `COPY` can do (spec R230). -/
theorem execCopy_eq (offset : BitVec 12) (length : BitVec 5) (s : State) :
    execCopy offset length s =
      if s.cursor.toNat + 1 < s.streamLen.toNat then
        (if length.toNat ≤ offset.toNat ∧ offset.toNat ≤ s.outLen.toNat then
          (if s.outLen.toNat + copyCount s length ≤ Config.outCap then
            .next (committedState s (.span (copyStart s offset).toNat) (copyCount s length) 2 (.copy offset length))
           else .fault .outputOverflow)
         else .next (raiseError .invalidBackReference (some (faultWithNext (.copy offset length))) s))
      else .next (raiseError .truncatedInstruction (some (faultNoNext (.copy offset length))) s) := by
  simp only [execCopy, appendCommit_eq, hasNextByte_iff, spanValid_iff]

/-- Everything an instruction can do when it answers a next state: commit between 1 and 31 bytes, or halt on one of the
two instruction errors (spec R185, R277). -/
theorem exec_next_cases {i : Instr} {s t : State} (h : exec i s = .next t) :
    (∃ src k, t = committedState s src k (instrLength i.opcodeByte) i ∧ k < 32 ∧
      s.outLen.toNat + k ≤ Config.outCap ∧ (i.wellFormed = true → k ≤ 17) ∧
      (i.wellFormed = true → s.outLen.toNat < s.declLen.toNat → 1 ≤ k) ∧
      (s.ctrl.trim = true → s.outLen.toNat < s.declLen.toNat → s.outLen.toNat + k ≤ s.declLen.toNat) ∧
      (instrLength i.opcodeByte = 2 → s.cursor.toNat + 1 < s.streamLen.toNat)) ∨
    (∃ e f, t = raiseError e (some f) s ∧ (e = .truncatedInstruction ∨ e = .invalidBackReference)) ∨
    i.wellFormed = false := by
  cases i with
  | lit v =>
    rw [show exec (.lit v) s = execLit v s from rfl, execLit_eq] at h
    split at h
    · next hc =>
      split at h
      · next ho =>
        refine .inl ⟨.literal v, 1, ?_, by omega, ho, by omega, by omega, by omega, fun _ => hc⟩
        injection h with h; exact h.symm
      · cases h
    · injection h with h; exact .inr (.inl ⟨_, _, h.symm, .inl rfl⟩)
  | lut i =>
    by_cases hi : i.val = 0
    · right; right; simp [Instr.wellFormed, hi]
    · have hlen : instrLength (Instr.lut i).opcodeByte = 1 := by
        have h60 := i.isLt
        have : (BitVec.ofNat 8 i.val).toNat = i.val := by simp; omega
        simp only [Instr.opcodeByte, instrLength, this, if_neg hi]
        rw [if_pos (by omega)]
      rw [show exec (.lut i) s = execLut i s from rfl, execLut_eq] at h
      split at h
      · next ho =>
        refine .inl ⟨.table i, 1, ?_, by omega, ho, by omega, by omega, by omega, by omega⟩
        injection h with h; rw [hlen]; exact h.symm
      · cases h
  | copy offset length =>
    by_cases hw : (Instr.copy offset length).wellFormed = true
    · have hw' := hw
      simp only [Instr.wellFormed, Bool.and_eq_true, decide_eq_true_eq] at hw'
      have hlen : instrLength (Instr.copy offset length).opcodeByte = 2 := by
        have hb : ((Instr.copy offset length).opcodeByte).toNat = 60 + offset.toNat / 16 := by
          simp [Instr.opcodeByte, BitVec.toNat_add, Nat.shiftRight_eq_div_pow]; omega
        simp only [instrLength, hb]
        rw [if_neg (by omega), if_neg (by omega)]
      rw [show exec (.copy offset length) s = execCopy offset length s from rfl, execCopy_eq] at h
      have hle := copyCount_le s length
      split at h
      · next hc =>
        split at h
        · split at h
          · next ho =>
            refine .inl ⟨.span (copyStart s offset).toNat, copyCount s length, ?_, by omega, ho, by omega,
              fun _ => copyCount_pos hw'.1.2, ?_, fun _ => hc⟩
            · injection h with h; rw [hlen]; exact h.symm
            · intro ht hd; simp only [copyCount, ht, if_true]; omega
          · cases h
        · injection h with h; exact .inr (.inl ⟨_, _, h.symm, .inr rfl⟩)
      · injection h with h; exact .inr (.inl ⟨_, _, h.symm, .inl rfl⟩)
    · exact .inr (.inr (by simpa using hw))

/-- Everything one loop step can do (spec R180). -/
theorem loopStep_cases {s : State} {o : Host.Outcome State Fault Refusal} (h : loopStep s = o) :
    (s.declLen.toNat ≤ s.outLen.toNat ∧ o = .next (terminate .lengthReached s)) ∨
    (s.outLen.toNat < s.declLen.toNat ∧ s.streamLen.toNat ≤ s.cursor.toNat ∧
      o = .next (terminate .inputExhausted s)) ∨
    (s.outLen.toNat < s.declLen.toNat ∧ s.cursor.toNat < s.streamLen.toNat ∧ limitReached s = true ∧
      o = .next (terminate .limitReached s)) ∨
    (ReachesInstruction s ∧ o = exec (fetchInstr s) s) := by
  simp only [loopStep] at h
  split at h
  · next h1 => exact .inl ⟨h1, h.symm⟩
  · next h1 =>
    split at h
    · next h2 => exact .inr (.inl ⟨by omega, h2, h.symm⟩)
    · next h2 =>
      split at h
      · next h3 => exact .inr (.inr (.inl ⟨by omega, by omega, h3, h.symm⟩))
      · next h3 => exact .inr (.inr (.inr ⟨⟨by omega, by omega, by simpa using h3⟩, h.symm⟩))

/-- Everything the header parse can do (spec R151, R152, R156, R158). -/
theorem headerParse_cases (s : State) :
    (s.streamLen.toNat < 8 ∧ headerParse s = raiseError .headerTruncated none { s with hdrPending := false }) ∨
    (8 ≤ s.streamLen.toNat ∧ ∃ l, l = headerLoad (streamByte s 0) (streamByte s 1) (streamByte s 2) (streamByte s 3)
        (streamByte s 4) (streamByte s 5) (streamByte s 6) (streamByte s 7) s ∧
      ((s.ctrl.strict = true ∧ l.status.warnMarker = true ∧ headerParse s = raiseError .markerMismatch none l) ∨
       (s.ctrl.strict = true ∧ l.status.warnMarker = false ∧ l.status.warnResv = true ∧
          headerParse s = raiseError .reservedNonzero none l) ∨
       ((s.ctrl.strict = false ∨ (l.status.warnMarker = false ∧ l.status.warnResv = false)) ∧
          headerParse s = { l with cursor := 8#32 }))) := by
  simp only [headerParse]
  split
  · next h => exact .inl ⟨h, rfl⟩
  · next h =>
    refine .inr ⟨by omega, _, rfl, ?_⟩
    generalize hl : headerLoad (streamByte s 0) (streamByte s 1) (streamByte s 2) (streamByte s 3)
      (streamByte s 4) (streamByte s 5) (streamByte s 6) (streamByte s 7) s = l
    have hc : l.ctrl = s.ctrl := by rw [← hl]; rfl
    simp only [headerFinish, hc]
    cases s.ctrl.strict <;> cases l.status.warnMarker <;> cases l.status.warnResv <;> simp

/-- Everything one step can do: the first waiting move, or the engine's. -/
theorem step_cases (s : State) :
    (s.inputs = [] ∧ step s = engineStep s) ∨
    (∃ rest, s.inputs = .engine :: rest ∧ step s = engineStep { s with inputs := rest }) ∨
    (∃ op rest, s.inputs = .host op :: rest ∧ step s = hostStep op { s with inputs := rest }) ∨
    (∃ rest, s.inputs = .rst :: rest ∧ step s = .next (resetStep { s with inputs := rest })) := by
  simp only [step, moveStep]
  split
  · next h => exact .inl ⟨h, rfl⟩
  · next rest h => exact .inr (.inl ⟨rest, h, rfl⟩)
  · next op rest h => exact .inr (.inr (.inl ⟨op, rest, h, rfl⟩))
  · next rest h => exact .inr (.inr (.inr ⟨rest, h, rfl⟩))

/-- Everything one move of the engine can do. -/
theorem engineStep_cases (s : State) :
    (s.status.state = .busy ∧ s.hdrPending = true ∧ engineStep s = .next (headerParse s)) ∨
    (InLoop s ∧ engineStep s = loopStep s) ∨
    (s.status.state ≠ .busy ∧ engineStep s = .next { s with trace := none }) := by
  simp only [engineStep, InLoop]
  by_cases hb : s.status.state = .busy
  · have : s.busy = true := by simpa using hb
    cases hp : s.hdrPending <;> simp [this, hb]
  · have : s.busy = false := by simp [State.busy, hb]
    simp [this, hb]

/-- Everything a register-port write can do (spec R33, R34). -/
theorem portWriteWord_cases (offset : Nat) (w : Word) (s : State) :
    (s.status.state = .busy ∧ portWriteWord offset w s = s) ∨
    (s.status.state ≠ .busy ∧ offset = 0x00 ∧ w.getLsbD 0 = true ∧ portWriteWord offset w s = startCommand w s) ∨
    (s.status.state ≠ .busy ∧ offset = 0x00 ∧ w.getLsbD 0 = false ∧
      portWriteWord offset w s = { s with ctrl := ctrlOptions w }) ∨
    (s.status.state ≠ .busy ∧ offset = 0x08 ∧ portWriteWord offset w s = writeStreamLen w s) ∨
    (s.status.state ≠ .busy ∧ offset = 0x0C ∧ portWriteWord offset w s = writeMaxInsns w s) ∨
    (s.status.state ≠ .busy ∧ offset ≠ 0x00 ∧ offset ≠ 0x08 ∧ offset ≠ 0x0C ∧ portWriteWord offset w s = s) := by
  simp only [portWriteWord, writeCtrl]
  by_cases hb : s.status.state = .busy
  · have : s.busy = true := by simpa using hb
    simp [this, hb]
  · have : s.busy = false := by simp [State.busy, hb]
    by_cases h0 : offset = 0x00
    · cases hw : w.getLsbD 0 <;> simp_all
    · by_cases h8 : offset = 0x08
      · subst h8; simp [this, hb]
      · by_cases hC : offset = 0x0C
        · subst hC; simp [this, hb]
        · simp [this, hb, h0, h8, hC]

/-- Everything an access of the host can do when it answers a next state. -/
theorem hostStep_next_cases {op : HostOp} {s t : State} (h : hostStep op s = .next t) :
    (∃ r, t = { s with trace := none, reply := some r }) ∨
    (∃ a v, op = .outWrite a v ∧ t = { s with trace := none }) ∨
    (∃ offset value, op = .portWrite offset 4 value ∧ offset % 4 = 0 ∧
      t = portWriteWord offset value { s with trace := none }) ∨
    (∃ a v, op = .streamWrite a v ∧ (s.status.state = .busy → s.streamLen.toNat ≤ a) ∧ a < Config.streamCap ∧
      t = { s with trace := none, stream := Memory.write s.stream a v }) := by
  cases op with
  | portRead offset width =>
    simp only [hostStep, hostAccess] at h
    split at h
    · injection h with h; exact .inl ⟨_, h.symm⟩
    · cases h
  | portWrite offset width value =>
    simp only [hostStep, hostAccess] at h
    split at h
    · next hok =>
      simp only [portAccessOk, Bool.and_eq_true, decide_eq_true_eq] at hok
      obtain ⟨rfl, ho⟩ := hok
      injection h with h; exact .inr (.inr (.inl ⟨offset, value, rfl, ho, h.symm⟩))
    · cases h
  | outRead a =>
    simp only [hostStep, hostAccess] at h
    injection h with h; exact .inl ⟨_, h.symm⟩
  | outWrite a v =>
    simp only [hostStep, hostAccess] at h
    injection h with h; exact .inr (.inl ⟨a, v, rfl, h.symm⟩)
  | streamWrite a v =>
    simp only [hostStep, hostAccess, streamStore] at h
    split at h
    · cases h
    · next hb =>
      split at h
      · next ha =>
        injection h with h
        refine .inr (.inr (.inr ⟨a, v, rfl, ?_, ha, h.symm⟩))
        intro hbusy
        by_contra hlt
        apply hb
        simp only [Bool.and_eq_true, busy_iff, decide_eq_true_eq]
        exact ⟨hbusy, by omega⟩
      · cases h

@[simp] theorem steps_zero (s : State) : steps 0 s = .next s := rfl

theorem steps_succ_of_next {s t : State} (n : Nat) (h : step s = .next t) : steps (n + 1) s = steps n t := by
  simp only [steps, h]

/-- Steps compose: a steps and then b more are a + b steps. -/
theorem steps_add {a : Nat} {s t : State} (b : Nat) (h : steps a s = .next t) : steps (a + b) s = steps b t := by
  induction a generalizing s with
  | zero => injection h with h; subst h; rw [Nat.zero_add]
  | succ a ih =>
    cases e : step s with
    | next u =>
      rw [steps_succ_of_next a e] at h
      rw [Nat.succ_add, steps_succ_of_next _ e, ih h]
    | fault r => simp only [steps, e] at h; cases h
    | refused r => simp only [steps, e] at h; cases h

end Sys2Proof.Machine
end

