-- ==== Sys2Proof/Laws/PerInstr.lean ====
section
/-! SUPPORT. Laws of the instructions as syntax, one lemma for each constructor. -/

namespace Sys2Proof.Laws.LengthByOpcode

/-- The encoding of a well-formed instruction is as long as its opcode byte says (spec R112). -/
def Statement (i : Instr) : Prop := i.wellFormed = true → (encode i).length = instrLength i.opcodeByte

theorem lit (v : Byte) : Statement (.lit v) := fun _ => rfl

theorem lut (index : Fin 60) : Statement (.lut index) := by
  intro h
  have hi : index.val ≠ 0 := by simpa [Instr.wellFormed] using h
  have h60 := index.isLt
  have hb : (BitVec.ofNat 8 index.val).toNat = index.val := by simp; omega
  simp only [encode, Instr.opcodeByte, instrLength, hb, if_neg hi, List.length_singleton]
  rw [if_pos (by omega)]

theorem copy (offset : BitVec 12) (length : BitVec 5) : Statement (.copy offset length) := by
  intro h
  have ho : offset.toNat ≤ 3135 := by
    simp only [Instr.wellFormed, Bool.and_eq_true, decide_eq_true_eq] at h; exact h.1.1
  have hb : ((Instr.copy offset length).opcodeByte).toNat = 60 + offset.toNat / 16 := by
    simp [Instr.opcodeByte, BitVec.toNat_add, Nat.shiftRight_eq_div_pow]; omega
  simp only [encode, instrLength, hb, List.length_cons, List.length_nil]
  rw [if_neg (by omega), if_neg (by omega)]

end Sys2Proof.Laws.LengthByOpcode
end

