-- ==== Sys2Proof/Tests/Slice0.lean ====
section
/-! SUPPORT. The model's own tests, small and each about one step, with expected values from the spec's encodings and test
vectors (30_encoding.md, 95_test_vectors.md); and for each statement with hypotheses a witness that meets them. -/

namespace Sys2Proof.Tests

open Sys2Proof.Machine

/-! ## Small states -/

/-- The next state of an outcome, where there is one. -/
def next? (o : Host.Outcome State Fault Refusal) : Option State :=
  match o with
  | .next t => some t
  | _ => none

/-- A state of the decode loop with the given bytes of S from `CURSOR` on and the given output. -/
def loopAt (cursor streamLen declLen : Nat) (bytes out : List Byte) : State :=
  { State.reset with
    status := ⟨.busy, .none, .none, false, false⟩
    cursor := BitVec.ofNat 32 cursor
    streamLen := BitVec.ofNat 32 streamLen
    declLen := BitVec.ofNat 16 declLen
    outLen := BitVec.ofNat 17 out.length
    stream := Memory.writeBytes [] cursor bytes
    out := Memory.writeBytes [] 0 out }

/-- A state after START with the given stream and options, about to parse the header. -/
def headerAt (strict : Bool) (bytes : List Byte) : State :=
  { State.reset with
    ctrl := ⟨strict, false, false⟩
    status := ⟨.busy, .none, .none, false, false⟩
    streamLen := BitVec.ofNat 32 bytes.length
    stream := Memory.writeBytes [] 0 bytes
    hdrPending := true }

/-- A state before START with the given stream. -/
def idleWith (bytes : List Byte) : State :=
  { State.reset with
    streamLen := BitVec.ofNat 32 bytes.length
    stream := Memory.writeBytes [] 0 bytes }

/-- A state whose first waiting move is `m`. -/
def waiting (m : Input) (s : State) : State := { s with inputs := [m] }

/-- The characters "hello" (W10). -/
def hello : List Byte := [0x68#8, 0x65#8, 0x6C#8, 0x6C#8, 0x6F#8]

/-! ## Well-formedness: each check refuses an ill-formed term, and both ends of each range pass -/

theorem test_lut_index_zero_refused : (Instr.lut 0).wellFormed = false := by decide
theorem test_lut_index_ends : (Instr.lut 1).wellFormed = true ∧ (Instr.lut 59).wellFormed = true := by decide
theorem test_copy_offset_refused : (Instr.copy 3136#12 2#5).wellFormed = false := by decide
theorem test_copy_length_low_refused : (Instr.copy 16#12 1#5).wellFormed = false := by decide
theorem test_copy_length_high_refused : (Instr.copy 18#12 18#5).wellFormed = false := by decide
theorem test_copy_ends : (Instr.copy 0#12 2#5).wellFormed = true ∧ (Instr.copy 3135#12 17#5).wellFormed = true := by
  decide
theorem test_lit_any : (Instr.lit 0xFF#8).wellFormed = true := by decide

/-! ## Decoding: bytes written out from R113 to R117 -/

theorem test_decode_lit : decode [0b00000000#8, 0b01000001#8] = .ok (.lit 0x41#8, []) := by decide
theorem test_decode_lut_first : decode [0b00000001#8, 0xAA#8] = .ok (.lut 1, [0xAA#8]) := by decide
theorem test_decode_lut_last : decode [0b00111011#8] = .ok (.lut 59, []) := by decide
/-- b = 0x7F: H = 67; n = 0x3C: K = 3, L = 12; offset 67 * 16 + 12 = 1084, length 5 (vector C17). -/
theorem test_decode_copy : decode [0b01111111#8, 0b00111100#8] = .ok (.copy 1084#12 5#5, []) := by decide
/-- b = 0x3C is the first `COPY` (vectors K5, C2). -/
theorem test_decode_copy_first : decode [0b00111100#8, 0b00000000#8] = .ok (.copy 0#12 2#5, []) := by decide
/-- Vector C8. -/
theorem test_decode_copy_last : decode [0xFF#8, 0xFF#8] = .ok (.copy 3135#12 17#5, []) := by decide
theorem test_decode_truncated : decode [0x3C#8] = .error (.truncated 0x3C#8) ∧ decode [] = .error .noOpcodeByte := by
  decide
theorem test_encode_copy : encode (.copy 71#12 12#5) = [0x40#8, 0xA7#8] := by decide

/-! ## The opcode table's numbering (log 11): byte 0 leftmost -/

theorem test_table_lit : decodeTableWord 16 0x0041 = some (.lit 0x41#8) := by decide
theorem test_table_lut : decodeTableWord 8 0x3B = some (.lut 59) := by decide
theorem test_table_copy : decodeTableWord 16 0x40A7 = some (.copy 71#12 12#5) := by decide
/-- The step after reset runs the placed instruction: `CURSOR` goes from 8 to 10. -/
theorem test_place_lit :
    (next? (step (State.reset.withFetchWord 16 0x0041))).map (fun t => (t.cursor, t.outLen)) = some (10#32, 1#17) := by
  decide
theorem test_place_lut :
    (next? (step (State.reset.withFetchWord 8 0x3B))).map (fun t => (t.cursor, t.outLen)) = some (9#32, 1#17) := by
  decide
/-- After reset the output is empty, so no `COPY` is valid: ERR 3, `FAULT` op 0x40 and next 0xA7. -/
theorem test_place_copy :
    (next? (step (State.reset.withFetchWord 16 0x40A7))).map (fun t => (t.status.err, t.faultReg)) =
      some (.invalidBackReference, ⟨0x40#8, 0xA7#8, true⟩) := by decide

/-! ## One step of each instruction -/

/-- Vector L3. -/
theorem test_lit_appends :
    (next? (step (loopAt 20 30 9 [0x00#8, 0xFF#8] [1#8, 2#8, 3#8]))).map
      (fun t => (t.cursor, t.outLen, t.insnCount, Memory.lookup t.out 3)) =
      some (22#32, 4#17, 1#16, some 0xFF#8) := by decide
/-- Vector L6: `STATUS` = 0x213, `FAULT` = 0. -/
theorem test_lit_truncated :
    (next? (step (loopAt 29 30 9 [0x00#8] [1#8, 2#8, 3#8, 4#8]))).map
      (fun t => (statusWord t.status, t.cursor, t.outLen, faultWord t.faultReg)) =
      some (0x213#32, 29#32, 4#17, 0#32) := by decide
/-- Vector K2. -/
theorem test_lut_appends :
    (next? (step (loopAt 8 20 5 [0x3B#8] []))).map (fun t => (t.cursor, t.outLen, Memory.lookup t.out 0)) =
      some (9#32, 1#17, some (Config.lutTable 59)) := rfl
/-- Vector K4: at the last byte of the stream `LUT` raises nothing. -/
theorem test_lut_at_the_end :
    (next? (step (loopAt 8 9 2 [0x03#8] []))).map (fun t => (t.cursor, t.status.err)) = some (9#32, .none) := by decide
/-- W10: "hello" and `3C 05` give "hellohe". -/
theorem test_copy_appends :
    (next? (step (loopAt 18 20 7 [0x3C#8, 0x05#8] hello))).map (fun t => (t.cursor, t.output)) =
      some (20#32, [0x68#8, 0x65#8, 0x6C#8, 0x6C#8, 0x6F#8, 0x68#8, 0x65#8]) := by decide
/-- Vector M2: with TRIM the check uses the full length; `STATUS` = 0x313, `FAULT` = 0x1123C. -/
theorem test_copy_trim_checks_full_length :
    (next? (step { loopAt 12 14 3 [0x3C#8, 0x12#8] [0x61#8, 0x62#8] with ctrl := ⟨false, true, false⟩ })).map
      (fun t => (statusWord t.status, faultWord t.faultReg, t.cursor, t.outLen)) =
      some (0x313#32, 0x1123C#32, 12#32, 2#17) := by decide
/-! ## The header parse and the registers -/

/-- Vector H8: the marker comes first, both warnings are set, `MARKER` = 0x005A5958, `RESV` = 0x00FF. -/
theorem test_header_strict :
    (next? (step (headerAt true [0x58#8, 0x59#8, 0x5A#8, 0x00#8, 0x00#8, 0x01#8, 0xFF#8, 0x00#8]))).map
      (fun t => (statusWord t.status, t.marker, t.resv, t.declLen, t.cursor)) =
      some (0x30413#32, 0x005A5958#32, 0x00FF#16, 1#16, 0#32) := by decide
/-- Vector H9: `12 34` declares 0x1234. -/
theorem test_header_big_endian :
    (next? (step (headerAt false [0x3A#8, 0x63#8, 0x3A#8, 0x00#8, 0x12#8, 0x34#8, 0x00#8, 0x00#8]))).map
      (fun t => (t.declLen, t.marker, t.cursor)) = some (0x1234#16, 0x003A633A#32, 8#32) := by decide
/-- Vector H2. -/
theorem test_header_truncated :
    (next? (step (headerAt false [1#8, 2#8, 3#8, 4#8, 5#8, 6#8, 7#8]))).map (fun t => statusWord t.status) =
      some 0x113#32 := by decide

/-! ## The decode loop at its entry meets the invariant -/

/-- The decode loop at its entry, with an empty output and two bytes declared. -/
def loopEntry : State := loopAt 8 8 2 [] []

theorem loopEntry_invariant : Invariant loopEntry := by
  have h := streamCap_ge
  refine ⟨⟨by decide, by decide, by decide, by decide, by decide⟩, ⟨by decide, by decide, ?_, ?_⟩, h, h, ?_, ?_, ?_, ?_⟩
  · intro c hc; cases hc
  · intro c hc; cases hc
  · intro hi; cases hi
  · intro hi; cases hi
  · intro _ _
    refine ⟨by decide, by decide, by decide, by decide, by decide, by decide, by decide, ?_⟩
    intro a ha
    exact absurd ha (Nat.not_lt_zero a)
  · rintro (hi | hi) <;> cases hi

/-- No part of the invariant speaks of the moves that wait. -/
theorem loopEntry_waiting_invariant (inputs : List Input) : Invariant { loopEntry with inputs := inputs } :=
  have h := loopEntry_invariant
  ⟨h.status, h.memories, h.streamLen, h.cursor, h.idle, h.pending, h.loop, h.finished⟩

/-! ## Witnesses: states and operands that meet the hypotheses of each statement -/

theorem witness_DecodeOfEncodeIsTheInstruction :
    (Instr.lit 0xFF#8).wellFormed = true ∧ (Instr.lut 59).wellFormed = true ∧
    (Instr.copy 3135#12 17#5).wellFormed = true := by decide

theorem witness_EncodeOfDecodeIsTheBytes :
    decode [0x00#8, 0xFF#8, 7#8] = .ok (.lit 0xFF#8, [7#8]) ∧ decode [0x01#8] = .ok (.lut 1, []) ∧
    decode [0xFF#8, 0xF0#8] = .ok (.copy 3120#12 17#5, []) := by decide

theorem witness_DecoderRejectsOnlyMissingBytes :
    decode [] = .error .noOpcodeByte ∧ decode [0x00#8] = .error (.truncated 0x00#8) ∧
    decode [0x3C#8] = .error (.truncated 0x3C#8) := by decide

theorem witness_OpcodeByteSelectsInstructionAndLength :
    (1 ≤ (0x01#8).toNat ∧ (0x3B#8).toNat ≤ 0x3B) ∧ 0x3C ≤ (0x3C#8).toNat ∧ 0x3C ≤ (0xFF#8).toNat := by decide

theorem witness_CopyOffsetAndLengthAreTheirBitFields : 0x3C ≤ (0x3C#8).toNat ∧ 0x3C ≤ (0xFF#8).toNat := by decide

theorem witness_StepRunsTheDecodedInstruction :
    let s := loopAt 18 20 7 [0x3C#8, 0x05#8] hello
    s.inputs = [] ∧ InLoop s ∧ ReachesInstruction s ∧
    decode [fetchOpcode s, fetchNext s] = .ok (.copy 5#12 2#5, []) ∧ (Instr.copy 5#12 2#5).wellFormed = true ∧
    s.cursor.toNat + 1 < s.streamLen.toNat :=
  ⟨rfl, ⟨rfl, rfl⟩, ⟨by decide, by decide, rfl⟩, by decide, by decide, by decide⟩

theorem witness_StepRunsThePlacedTableWord : decodeTableWord 16 0xFFFF = some (.copy 3135#12 17#5) := by decide

theorem witness_DeclaredLengthReachedTerminates :
    let s := loopAt 8 20 5 [0x00#8] hello
    let z := loopAt 8 8 0 [] []
    (s.inputs = [] ∧ InLoop s ∧ s.declLen.toNat ≤ s.outLen.toNat) ∧ (z.inputs = [] ∧ InLoop z ∧ z.declLen = 0#16) :=
  ⟨⟨rfl, ⟨rfl, rfl⟩, by decide⟩, rfl, ⟨rfl, rfl⟩, rfl⟩

theorem witness_ExhaustedInputTerminates :
    let s := loopAt 8 8 6 [] hello
    s.inputs = [] ∧ InLoop s ∧ s.outLen.toNat < s.declLen.toNat ∧ s.streamLen.toNat ≤ s.cursor.toNat :=
  ⟨rfl, ⟨rfl, rfl⟩, by decide, by decide⟩

theorem witness_InstructionLimitTerminates :
    let s := { loopAt 8 9 6 [0x01#8] hello with ctrl := ⟨false, false, true⟩ }
    s.inputs = [] ∧ InLoop s ∧ s.outLen.toNat < s.declLen.toNat ∧ s.cursor.toNat < s.streamLen.toNat ∧
    s.ctrl.limitEn = true ∧ s.maxInsns.toNat ≤ s.insnCount.toNat ∧ s.maxInsns = 0#16 :=
  ⟨rfl, ⟨rfl, rfl⟩, by decide, by decide, rfl, by decide, rfl⟩

theorem witness_QuiescentEngineChangesNothing :
    State.reset.inputs = [] ∧ State.reset.status.state ≠ .busy ∧
    (terminate .lengthReached State.reset).inputs = [] ∧
    (terminate .lengthReached State.reset).status.state ≠ .busy := by decide

theorem witness_WaitingMovesTakeTheirTurn :
    let s := fun m => waiting m (loopAt 8 9 6 [0x01#8] [])
    ((s .rst).inputs = [.rst] ∧ ∃ t, step (s .rst) = .next t) ∧
    ((s (.host (.outRead 0))).inputs = [.host (.outRead 0)] ∧ ∃ t, step (s (.host (.outRead 0))) = .next t) ∧
    (s .engine).inputs = [.engine] :=
  ⟨⟨rfl, _, rfl⟩, ⟨rfl, _, rfl⟩, rfl⟩

theorem witness_LiteralAppendsItsOperand :
    let s := loopAt 18 20 6 [0x00#8, 0x41#8] hello
    s.outLen.toNat < s.declLen.toNat ∧ s.cursor.toNat + 1 < s.streamLen.toNat := by decide

theorem witness_TruncatedLiteralHalts :
    let s := loopAt 29 30 9 [0x00#8] hello
    s.streamLen.toNat ≤ s.cursor.toNat + 1 := by decide

theorem witness_LookupAppendsItsTableEntry :
    let s := loopAt 8 9 1 [0x03#8] []
    s.outLen.toNat < s.declLen.toNat ∧ s.cursor.toNat < s.streamLen.toNat := by decide

theorem witness_LookupStepAppendsTheEntryOfItsByte :
    let s := loopAt 8 9 1 [0x3B#8] []
    s.inputs = [] ∧ InLoop s ∧ ReachesInstruction s ∧ (59 : Fin 60).val ≠ 0 ∧
    streamByte s s.cursor.toNat = BitVec.ofNat 8 (59 : Fin 60).val :=
  ⟨rfl, ⟨rfl, rfl⟩, ⟨by decide, by decide, rfl⟩, by decide, by decide⟩

/-- With TRIM off and on, at the least length and with length = offset = `OUT_LEN`. -/
theorem witness_CopyAppendsItsSpan :
    let s := loopAt 18 20 6 [0x3C#8, 0x35#8] hello
    let t := { s with ctrl := ⟨false, true, false⟩ }
    (Instr.copy 5#12 5#5).wellFormed = true ∧ (Instr.copy 2#12 2#5).wellFormed = true ∧
    s.outLen.toNat < s.declLen.toNat ∧ s.cursor.toNat + 1 < s.streamLen.toNat ∧ (5#5).toNat ≤ (5#12).toNat ∧
    (2#5).toNat ≤ (2#12).toNat ∧ (5#12).toNat ≤ s.outLen.toNat ∧ s.ctrl.trim = false ∧ t.ctrl.trim = true := by decide

theorem witness_TruncatedCopyHalts :
    let s := loopAt 18 19 6 [0x3C#8] hello
    s.inputs = [] ∧ InLoop s ∧ ReachesInstruction s ∧ 0x3C ≤ (streamByte s s.cursor.toNat).toNat ∧
    s.streamLen.toNat ≤ s.cursor.toNat + 1 :=
  ⟨rfl, ⟨rfl, rfl⟩, ⟨by decide, by decide, rfl⟩, by decide, by decide⟩

/-- Vector C15: start = -1. -/
theorem witness_InvalidCopyHaltsWithoutEffect_negative :
    let s := loopAt 18 20 6 [0x3C#8, 0x06#8] hello
    s.inputs = [] ∧ InLoop s ∧ ReachesInstruction s ∧ s.cursor.toNat + 1 < s.streamLen.toNat ∧
    streamByte s s.cursor.toNat = 0x3C#8 ∧ streamByte s (s.cursor.toNat + 1) = 0x06#8 ∧ 0x3C ≤ (0x3C#8).toNat ∧
    (-1 : Int) = (s.outLen.toNat : Int) - ((((0x3C#8).toNat - 0x3C) * 16 + (0x06#8).toNat % 16 : Nat) : Int) ∧
    (-1 : Int) < 0 :=
  ⟨rfl, ⟨rfl, rfl⟩, ⟨by decide, by decide, rfl⟩, by decide, by decide, by decide, by decide, by decide, by decide⟩

/-- One byte past the output: offset 2, length 3 (vector C10). -/
theorem witness_InvalidCopyHaltsWithoutEffect_overlap :
    let s := loopAt 18 20 6 [0x3C#8, 0x12#8] hello
    s.inputs = [] ∧ InLoop s ∧ ReachesInstruction s ∧ s.cursor.toNat + 1 < s.streamLen.toNat ∧
    streamByte s s.cursor.toNat = 0x3C#8 ∧ streamByte s (s.cursor.toNat + 1) = 0x12#8 ∧ 0x3C ≤ (0x3C#8).toNat ∧
    (3 : Int) = (s.outLen.toNat : Int) - ((((0x3C#8).toNat - 0x3C) * 16 + (0x12#8).toNat % 16 : Nat) : Int) ∧
    (3 : Int) + (((0x12#8).toNat / 16 + 2 : Nat) : Int) > (s.outLen.toNat : Int) :=
  ⟨rfl, ⟨rfl, rfl⟩, ⟨by decide, by decide, rfl⟩, by decide, by decide, by decide, by decide, by decide, by decide⟩

theorem witness_SpanIsValidExactlyWhenLengthOffsetOutput :
    let s := loopAt 18 20 6 [] hello
    spanValid s 5#12 5#5 = true ∧ (2 ≤ (2#5).toNat ∧ (1#12).toNat ≤ 1) ∧
    (2 ≤ (2#5).toNat ∧ (loopAt 8 20 6 [] [1#8]).outLen.toNat < 2) := by decide

theorem witness_AppendOvershootsAtMostSixteen :
    let s := loopAt 8 20 6 [0x00#8, 0x41#8] hello
    let t := { s with ctrl := ⟨false, true, false⟩ }
    (Instr.lit 0x41#8).wellFormed = true ∧ s.outLen.toNat < s.declLen.toNat ∧
    (∃ u, exec (.lit 0x41#8) s = .next u) ∧ (∃ u, exec (.lit 0x41#8) t = .next u) ∧ t.ctrl.trim = true :=
  ⟨rfl, by decide, ⟨_, rfl⟩, ⟨_, rfl⟩, rfl⟩

theorem witness_InstructionCommitsOrHaltsWithoutEffect :
    let s := loopAt 8 20 6 [0x3C#8, 0x06#8] hello
    (Instr.copy 6#12 2#5).wellFormed = true ∧ s.outLen.toNat < s.declLen.toNat ∧
    s.cursor.toNat < s.streamLen.toNat ∧ ∃ u, exec (.copy 6#12 2#5) s = .next u :=
  ⟨rfl, by decide, by decide, _, rfl⟩

theorem witness_LoopNeverStops :
    let s := loopAt 8 20 6 [0x3C#8, 0x06#8] hello
    s.inputs = [] ∧ InLoop s := ⟨rfl, rfl, rfl⟩

/-- After a `LUT` and after a `LIT` the memory `m` has another byte. -/
theorem witness_LoopStepReadsOnlyItsInstruction :
    let s := loopAt 8 20 6 [0x01#8, 0x41#8] hello
    let m := Memory.writeBytes [] 8 [0x01#8, 0x42#8]
    let s' := loopAt 8 20 6 [0x00#8, 0x41#8, 0x01#8] hello
    let m' := Memory.writeBytes [] 8 [0x00#8, 0x41#8, 0x02#8]
    ((ReachesInstruction s ∧ ∀ a, s.cursor.toNat ≤ a → a < s.cursor.toNat + instrLength (fetchOpcode s) →
      a < s.streamLen.toNat → Memory.lookup m a = Memory.lookup s.stream a) ∧ ∃ t, loopStep s = .next t) ∧
    ((ReachesInstruction s' ∧ ∀ a, s'.cursor.toNat ≤ a → a < s'.cursor.toNat + instrLength (fetchOpcode s') →
      a < s'.streamLen.toNat → Memory.lookup m' a = Memory.lookup s'.stream a) ∧ ∃ t, loopStep s' = .next t) := by
  refine ⟨⟨⟨⟨by decide, by decide, rfl⟩, ?_⟩, _, rfl⟩, ⟨⟨by decide, by decide, rfl⟩, ?_⟩, _, rfl⟩
  · intro a h1 h2 _
    have h1 : 8 ≤ a := h1
    have h2 : a < 9 := h2
    obtain rfl : a = 8 := by omega
    decide
  · intro a h1 h2 _
    have h1 : 8 ≤ a := h1
    have h2 : a < 10 := h2
    obtain rfl | rfl : a = 8 ∨ a = 9 := by omega
    all_goals decide

theorem witness_TraceRecordsChain :
    let s := loopAt 8 20 6 [0x00#8, 0x41#8] hello
    s.inputs = [] ∧ InLoop s ∧ ∃ t, step s = .next t := ⟨rfl, ⟨rfl, rfl⟩, _, rfl⟩

theorem witness_StartStoresOptionsAndClearsResults :
    let s := waiting (.host (.portWrite 0x00 4 0x0F#32)) State.reset
    s.inputs = [.host (.portWrite 0x00 4 0x0F#32)] ∧ s.status.state ≠ .busy ∧ (0x0F#32).getLsbD 0 = true := by decide

theorem witness_ShortHeaderHalts :
    let s := headerAt false [1#8, 2#8, 3#8, 4#8, 5#8, 6#8, 7#8]
    s.inputs = [] ∧ s.status.state = .busy ∧ s.hdrPending = true ∧ ResultsClear s ∧ s.streamLen.toNat < 8 :=
  ⟨rfl, rfl, rfl, ⟨rfl, rfl, rfl, rfl, rfl, rfl, rfl⟩, by decide⟩

theorem witness_HeaderParseRecordsItsFields :
    let s := headerAt false [0x3A#8, 0x63#8, 0x3A#8, 0x00#8, 0x00#8, 0x02#8, 0x00#8, 0x00#8]
    s.inputs = [] ∧ s.status.state = .busy ∧ s.hdrPending = true ∧ 8 ≤ s.streamLen.toNat := by decide

/-- A marker mismatch (vector H5). -/
theorem witness_StrictModeMakesMismatchesFatal_marker :
    let s := headerAt true [0x58#8, 0x59#8, 0x5A#8, 0x00#8, 0x00#8, 0x01#8, 0x00#8, 0x00#8]
    s.inputs = [] ∧ s.status.state = .busy ∧ s.hdrPending = true ∧ ResultsClear s ∧ 8 ≤ s.streamLen.toNat ∧
    s.ctrl.strict = true ∧ streamByte s 0 ≠ 0x3A#8 :=
  ⟨rfl, rfl, rfl, ⟨rfl, rfl, rfl, rfl, rfl, rfl, rfl⟩, by decide, rfl, by decide⟩

/-- A reserved byte alone (vector H7). -/
theorem witness_StrictModeMakesMismatchesFatal_reserved :
    let s := headerAt true [0x3A#8, 0x63#8, 0x3A#8, 0x00#8, 0x00#8, 0x01#8, 0x00#8, 0x07#8]
    s.inputs = [] ∧ s.status.state = .busy ∧ s.hdrPending = true ∧ ResultsClear s ∧ 8 ≤ s.streamLen.toNat ∧
    s.ctrl.strict = true ∧ streamByte s 7 ≠ 0x00#8 ∧
    ¬(streamByte s 0 ≠ 0x3A#8 ∨ streamByte s 1 ≠ 0x63#8 ∨ streamByte s 2 ≠ 0x3A#8 ∨ streamByte s 3 ≠ 0x00#8) :=
  ⟨rfl, rfl, rfl, ⟨rfl, rfl, rfl, rfl, rfl, rfl, rfl⟩, by decide, rfl, by decide, by decide⟩

/-- Soft mode with a mismatch (vector H4), and strict mode without one. -/
theorem witness_HeaderParseEntersTheLoopAtEight :
    let s := headerAt false [0x58#8, 0x59#8, 0x5A#8, 0x00#8, 0x00#8, 0x01#8, 0x00#8, 0x00#8]
    let t := headerAt true [0x3A#8, 0x63#8, 0x3A#8, 0x00#8, 0x00#8, 0x01#8, 0x00#8, 0x00#8]
    (s.inputs = [] ∧ s.status.state = .busy ∧ s.hdrPending = true ∧ ResultsClear s ∧ 8 ≤ s.streamLen.toNat ∧
      s.ctrl.strict = false) ∧
    (t.inputs = [] ∧ t.status.state = .busy ∧ t.hdrPending = true ∧ ResultsClear t ∧ 8 ≤ t.streamLen.toNat ∧
      streamByte t 0 = 0x3A#8 ∧ streamByte t 1 = 0x63#8 ∧ streamByte t 2 = 0x3A#8 ∧ streamByte t 3 = 0x00#8 ∧
      streamByte t 6 = 0x00#8 ∧ streamByte t 7 = 0x00#8) :=
  ⟨⟨rfl, rfl, rfl, ⟨rfl, rfl, rfl, rfl, rfl, rfl, rfl⟩, by decide, rfl⟩,
    rfl, rfl, rfl, ⟨rfl, rfl, rfl, rfl, rfl, rfl, rfl⟩, by decide, by decide, by decide, by decide, by decide,
    by decide, by decide⟩

theorem witness_HeaderParseReadsOnlyTheHeader :
    let s := headerAt false [0x3A#8, 0x63#8, 0x3A#8, 0x00#8, 0x00#8, 0x02#8, 0x00#8, 0x00#8, 0x01#8]
    ∀ a, a < 8 → Memory.lookup (s.stream.take 8) a = Memory.lookup s.stream a := by decide

/-- One decode for each termination reason and for each kind of error, each ending at the latest in its first loop step. -/
theorem witness_DecodeResultMatchesItsTermination :
    let empty := idleWith [0x3A#8, 0x63#8, 0x3A#8, 0x00#8, 0x00#8, 0x00#8, 0x00#8, 0x00#8]
    let short := idleWith [0x3A#8, 0x63#8, 0x3A#8, 0x00#8, 0x00#8, 0x02#8, 0x00#8, 0x00#8]
    let broken := idleWith [0x3A#8, 0x63#8, 0x3A#8, 0x00#8, 0x00#8, 0x02#8, 0x00#8, 0x00#8, 0x00#8]
    let limited := idleWith [0x3A#8, 0x63#8, 0x3A#8, 0x00#8, 0x00#8, 0x02#8, 0x00#8, 0x00#8, 0x01#8]
    (next? (decodeRun 0x5#32 empty)).map (fun t => t.status.term) = some .lengthReached ∧
    (next? (decodeRun 0x1#32 short)).map (fun t => t.status.term) = some .inputExhausted ∧
    (next? (decodeRun 0x9#32 limited)).map (fun t => t.status.term) = some .limitReached ∧
    (next? (decodeRun 0x1#32 broken)).map (fun t => t.status.err) = some .truncatedInstruction ∧
    (next? (decodeRun 0x1#32 State.reset)).map (fun t => t.status.err) = some .headerTruncated := by decide

/-- Two states with one stream that differ in O and in the trace port. -/
theorem witness_DecodeIsAFunctionOfItsInput :
    let s := idleWith [0x3A#8, 0x63#8, 0x3A#8, 0x00#8, 0x00#8, 0x02#8, 0x00#8, 0x00#8]
    let s' := { s with out := [(0, 0x55#8)], trace := some (.terminal (termRecord s)) }
    SameDecodeInput s s' ∧ ∃ t, decodeRun 0x1#32 s = .next t :=
  ⟨⟨rfl, rfl, fun _ _ => rfl⟩, _, rfl⟩

theorem witness_SoftModeIgnoresTheMarker :
    let s := idleWith [0x3A#8, 0x63#8, 0x3A#8, 0x00#8, 0x00#8, 0x02#8, 0x00#8, 0x00#8]
    let s' := idleWith [0x58#8, 0x59#8, 0x5A#8, 0x00#8, 0x00#8, 0x02#8, 0x00#8, 0x00#8]
    (0x1#32).getLsbD 1 = false ∧ s.streamLen = s'.streamLen ∧ s.maxInsns = s'.maxInsns ∧
    (∀ a, 4 ≤ a → a < s.streamLen.toNat → streamByte s a = streamByte s' a) ∧
    ∃ t, decodeRun 0x1#32 s = .next t := by
  refine ⟨by decide, rfl, rfl, ?_, _, rfl⟩
  intro a h4 h8
  have h8 : a < 8 := h8
  obtain rfl | rfl | rfl | rfl : a = 4 ∨ a = 5 ∨ a = 6 ∨ a = 7 := by omega
  all_goals decide

/-- Programs P1 (the declared length is reached) and, with one byte more declared, its short variant. -/
theorem witness_LiteralStreamDecodesToItsOperands :
    let s := idleWith [0x3A#8, 0x63#8, 0x3A#8, 0x00#8, 0x00#8, 0x02#8, 0x00#8, 0x00#8, 0x00#8, 0x41#8, 0x00#8, 0x42#8]
    let u := idleWith [0x3A#8, 0x63#8, 0x3A#8, 0x00#8, 0x00#8, 0x03#8, 0x00#8, 0x00#8, 0x00#8, 0x41#8, 0x00#8, 0x42#8]
    LiteralStream s [0x41#8, 0x42#8] ∧ LiteralStream u [0x41#8, 0x42#8] ∧ declaredLength s = 2 ∧
    declaredLength u = 3 ∧ (0x1#32).getLsbD 1 = false ∧ (0x1#32).getLsbD 3 = false := by
  refine ⟨⟨by decide, ?_⟩, ⟨by decide, ?_⟩, by decide, by decide, by decide, by decide⟩
  all_goals
    intro i hi
    have hi : i < 2 := hi
    obtain rfl | rfl : i = 0 ∨ i = 1 := by omega
    all_goals decide

theorem witness_PortReadsReturnTheRegisterMap :
    (waiting (.host (.portRead 0x28 4)) State.reset).inputs = [.host (.portRead 0x28 4)] ∧ 0x28 % 4 = 0 ∧
    (waiting (.host (.portRead 0x2C 4)) State.reset).inputs = [.host (.portRead 0x2C 4)] ∧ 0x2C % 4 = 0 := by decide

/-- The loop's entry meets the invariant, with a read of `STREAM_LEN` and of `CURSOR` waiting. -/
theorem witness_PortReadsReturnTheRegisterMap_widths :
    let s := fun offset => waiting (.host (.portRead offset 4)) loopEntry
    ((s 0x08).inputs = [.host (.portRead 0x08 4)] ∧ Invariant (s 0x08)) ∧
    ((s 0x1C).inputs = [.host (.portRead 0x1C 4)] ∧ Invariant (s 0x1C)) :=
  ⟨⟨rfl, loopEntry_waiting_invariant _⟩, rfl, loopEntry_waiting_invariant _⟩

theorem witness_PortAccessRules :
    (waiting (.host (.portRead 0x2C 4)) State.reset).inputs = [.host (.portRead 0x2C 4)] ∧
    (waiting (.host (.portWrite 0x04 4 0#32)) State.reset).inputs = [.host (.portWrite 0x04 4 0#32)] ∧
    (waiting (.host (.portRead 0x02 4)) State.reset).inputs = [.host (.portRead 0x02 4)] ∧
    (waiting (.host (.portWrite 0x00 1 1#32)) State.reset).inputs = [.host (.portWrite 0x00 1 1#32)] ∧
    ¬((4 : Nat) = 4 ∧ 0x02 % 4 = 0) ∧ ¬((1 : Nat) = 4 ∧ 0x00 % 4 = 0) := by decide

theorem witness_WritesWhileBusyAreIgnored :
    let s := waiting (.host (.portWrite 0x00 4 1#32)) (loopAt 8 9 6 [0x01#8] [])
    s.inputs = [.host (.portWrite 0x00 4 1#32)] ∧ 0x00 % 4 = 0 ∧ s.status.state = .busy := by decide

theorem witness_ConfigurationIsConstantWhileBusy :
    let s := waiting (.host (.portWrite 0x0C 4 1#32)) (loopAt 8 9 6 [0x01#8] [])
    s.status.state = .busy ∧ (∀ rest, s.inputs ≠ .rst :: rest) ∧ (∃ t, step s = .next t) ∧ s.hdrPending = false :=
  ⟨rfl, (by intro rest h; cases h), ⟨_, rfl⟩, rfl⟩

theorem witness_PortWritesStoreConfiguration :
    let w := fun offset => waiting (.host (.portWrite offset 4 0x0E#32)) State.reset
    (w 0x00).inputs = [.host (.portWrite 0x00 4 0x0E#32)] ∧ (w 0x08).inputs = [.host (.portWrite 0x08 4 0x0E#32)] ∧
    (w 0x0C).inputs = [.host (.portWrite 0x0C 4 0x0E#32)] ∧ (w 0x00).status.state ≠ .busy ∧
    (0x0E#32).getLsbD 0 = false := by decide

/-- The last byte of the output, the first beyond it, and the first address that does not exist. -/
theorem witness_OutputWindowShowsTheOutput :
    let s := fun a => waiting (.host (.outRead a)) (loopAt 8 9 6 [0x01#8] hello)
    ((s 4).inputs = [.host (.outRead 4)] ∧ 4 < Config.outCap ∧ 4 < (s 4).outLen.toNat) ∧
    ((s 5).inputs = [.host (.outRead 5)] ∧ 5 < Config.outCap ∧ (s 5).outLen.toNat ≤ 5) ∧
    ((s Config.outCap).inputs = [.host (.outRead Config.outCap)] ∧ Config.outCap ≤ Config.outCap) ∧
    (waiting (.host (.outWrite 0 1#8)) State.reset).inputs = [.host (.outWrite 0 1#8)] := by
  have h := outCap_ge
  exact ⟨⟨rfl, by omega, by decide⟩, ⟨rfl, by omega, by decide⟩, ⟨rfl, le_refl _⟩, rfl⟩

/-- While BUSY at the last byte of the stream and just beyond it; and at the first address that does not exist. -/
theorem witness_HostStreamWrites :
    let busy := loopAt 6 7 6 [] []
    let s := fun a => waiting (.host (.streamWrite a 1#8)) busy
    let z := waiting (.host (.streamWrite Config.streamCap 1#8)) State.reset
    ((s 6).inputs = [.host (.streamWrite 6 1#8)] ∧ (s 6).status.state = .busy ∧ 6 < (s 6).streamLen.toNat) ∧
    ((s 7).inputs = [.host (.streamWrite 7 1#8)] ∧ ¬((s 7).status.state = .busy ∧ 7 < (s 7).streamLen.toNat) ∧
      7 < Config.streamCap) ∧
    (z.inputs = [.host (.streamWrite Config.streamCap 1#8)] ∧
      ¬(z.status.state = .busy ∧ Config.streamCap < z.streamLen.toNat) ∧ Config.streamCap ≤ Config.streamCap) := by
  have h := streamCap_ge
  exact ⟨⟨rfl, rfl, by decide⟩, ⟨rfl, by decide, by omega⟩, rfl, (fun hb => nomatch hb.1), le_refl _⟩

theorem witness_ResultStaysUntilStartOrReset :
    let s := waiting (.host (.portWrite 0x00 4 0x0E#32)) (terminate .lengthReached (loopAt 8 9 5 [] hello))
    s.done = true ∧ (∃ t, step s = .next t) ∧ endsResult s = false := ⟨rfl, ⟨_, rfl⟩, by decide⟩

theorem witness_OutputIsAppendOnly :
    let s := loopAt 18 20 7 [0x3C#8, 0x05#8] hello
    (∃ t, step s = .next t) ∧ endsResult s = false ∧ 4 < s.outLen.toNat := ⟨⟨_, rfl⟩, rfl, by decide⟩

theorem witness_ResetInputClearsEveryRegister :
    let s := waiting .rst (loopAt 18 20 7 [0x3C#8, 0x05#8] hello)
    s.inputs = [.rst] ∧ 0 < Config.outCap := by
  have h := outCap_ge
  exact ⟨rfl, by omega⟩

/-- An error halt follows from a consistent status. -/
theorem witness_StatusFieldsStayConsistent :
    let s := loopAt 8 20 6 [0x3C#8, 0x06#8] hello
    s.status.consistent ∧ ∃ t, step s = .next t :=
  ⟨⟨by decide, by decide, by decide, by decide, by decide⟩, _, rfl⟩

/-- A host write of the stream at address 0. -/
theorem witness_MemoriesStayCanonical :
    let s := waiting (.host (.streamWrite 0 1#8)) { State.reset with out := [(0, 7#8)] }
    MemoriesOk s ∧ ∃ t, step s = .next t := by
  have h := streamCap_ge
  have ho := outCap_ge
  refine ⟨⟨by decide, by decide, ?_, ?_⟩, _, if_pos (show 0 < Config.streamCap by omega)⟩
  · intro c hc; cases hc
  · intro c hc
    obtain rfl : c = (0, 7#8) := List.mem_singleton.1 hc
    exact (show 0 < Config.outCap by omega)

theorem witness_StepKeepsTheInvariant : Invariant loopEntry ∧ ∃ t, step loopEntry = .next t :=
  ⟨loopEntry_invariant, _, rfl⟩

theorem witness_CycleMachineRefinesTheLoopStep :
    let m := microAt .check (loopAt 18 20 7 [0x3C#8, 0x05#8] hello)
    m.fsm = .check ∧ InLoop m.arch := ⟨rfl, rfl, rfl⟩

/-- An idle machine whose latches are not 0. -/
theorem witness_CycleMachineRefinesTheDecode :
    ({ microAt .idle State.reset with op := 0xFF#8, cnt := 3#5 } : Micro).arch.status.state ≠ .busy := by decide

theorem witness_SteppingGivesTheDecode :
    let s := waiting (.host (.portWrite 0x00 4 0x5#32)) State.reset
    s.status.state ≠ .busy ∧ s.inputs = [.host (.portWrite 0x00 4 0x5#32)] ∧ (0x5#32).getLsbD 0 = true := by decide

/-- Three steps from a START over an empty declared length (vector H10): the decode is done with LENGTH_REACHED. -/
theorem test_steps_of_a_decode :
    (next? (steps 3 (waiting (.host (.portWrite 0x00 4 0x1#32))
      (idleWith [0x3A#8, 0x63#8, 0x3A#8, 0x00#8, 0x00#8, 0x00#8, 0x00#8, 0x00#8, 0x3C#8, 0x00#8])))).map
      (fun t => (statusWord t.status, t.cursor)) = some (0x006#32, 8#32) := by decide

end Sys2Proof.Tests
end

section
/-! PROOF. What the header parse records from the stream (spec R45, R46, R151, R153 to R155). -/

namespace Sys2Proof.Machine

/-! ## Words put together from bytes -/

/-- Above the low byte of a word stand the bytes of the rest, one byte further down. -/
theorem extractByte_succ_append {n : Nat} (x : BitVec n) (b : Byte) (i : Nat) :
    (x ++ b).extractLsb' (8 * (i + 1)) 8 = x.extractLsb' (8 * i) 8 := by
  rw [BitVec.extractLsb'_append_eq_of_le (by omega), show 8 * (i + 1) - 8 = 8 * i by omega]

/-- Two bytes as `RESV` holds them: byte i in bits 8i+7..8i (spec R46). -/
theorem extractByte_two (f : Nat → Byte) {i : Nat} (hi : i < 2) :
    (f 1 ++ f 0).extractLsb' (8 * i) 8 = f i := by
  match i, hi with
  | 0, _ => exact BitVec.extractLsb'_append_eq_right
  | 1, _ => rw [extractByte_succ_append]; exact BitVec.extractLsb'_eq_self

/-- Four bytes as `MARKER` holds them: byte i in bits 8i+7..8i (spec R45). -/
theorem extractByte_four (f : Nat → Byte) {i : Nat} (hi : i < 4) :
    (f 3 ++ f 2 ++ f 1 ++ f 0).extractLsb' (8 * i) 8 = f i := by
  match i, hi with
  | 0, _ => exact BitVec.extractLsb'_append_eq_right
  | 1, _ => rw [extractByte_succ_append]; exact BitVec.extractLsb'_append_eq_right
  | i + 2, hi =>
    rw [extractByte_succ_append, extractByte_succ_append, extractByte_two (fun j => f (j + 2)) (by omega)]

/-- The low byte of a word is its last one in big-endian order. -/
theorem toNat_append_byte {n : Nat} (x : BitVec n) (b : Byte) : (x ++ b).toNat = x.toNat * 256 + b.toNat := by
  rw [BitVec.toNat_append, ← Nat.shiftLeft_add_eq_or_of_lt b.isLt, Nat.shiftLeft_eq]

/-! ## The warning flags (spec R154, R155) -/

theorem markerDiffers_iff (b0 b1 b2 b3 : Byte) :
    markerDiffers b0 b1 b2 b3 = true ↔ b0 ≠ 0x3A#8 ∨ b1 ≠ 0x63#8 ∨ b2 ≠ 0x3A#8 ∨ b3 ≠ 0x00#8 := by
  simp [markerDiffers, or_assoc]

theorem reservedDiffers_iff (b6 b7 : Byte) :
    reservedDiffers b6 b7 = true ↔ b6 ≠ 0x00#8 ∨ b7 ≠ 0x00#8 := by
  simp [reservedDiffers]

/-! ## The parse -/

/-- With no move waiting, the engine moves. -/
theorem step_of_no_inputs {s : State} (h : s.inputs = []) : step s = engineStep s := by
  obtain ⟨-, hstep⟩ | ⟨rest, hin, -⟩ | ⟨op, rest, hin, -⟩ | ⟨rest, hin, -⟩ := step_cases s
  · exact hstep
  all_goals rw [h] at hin; cases hin

/-- The engine's move after START is the header parse (spec R150). -/
theorem engineStep_of_hdrPending {s : State} (hb : s.status.state = .busy) (hp : s.hdrPending = true) :
    engineStep s = .next (headerParse s) := by
  obtain ⟨-, -, hstep⟩ | ⟨⟨-, hnot⟩, -⟩ | ⟨hidle, -⟩ := engineStep_cases s
  · exact hstep
  · rw [hp] at hnot; cases hnot
  · exact absurd hb hidle

/-- What a parse of eight bytes or more leaves in the header registers and the warning flags, whichever way the strict
checks go: they come after the load and write none of them (spec R151, R156). -/
theorem headerParse_records {s : State} (h : 8 ≤ s.streamLen.toNat) :
    (headerParse s).marker = streamByte s 3 ++ streamByte s 2 ++ streamByte s 1 ++ streamByte s 0 ∧
    (headerParse s).resv = streamByte s 7 ++ streamByte s 6 ∧
    (headerParse s).declLen = streamByte s 4 ++ streamByte s 5 ∧
    (headerParse s).status.warnMarker =
      markerDiffers (streamByte s 0) (streamByte s 1) (streamByte s 2) (streamByte s 3) ∧
    (headerParse s).status.warnResv = reservedDiffers (streamByte s 6) (streamByte s 7) := by
  obtain ⟨hshort, -⟩ | ⟨-, l, rfl, ⟨-, -, hparse⟩ | ⟨-, -, -, hparse⟩ | ⟨-, hparse⟩⟩ := headerParse_cases s
  · omega
  all_goals rw [hparse]; exact ⟨rfl, rfl, rfl, rfl, rfl⟩

/-- Settles O30: the step is the header parse, and each field it records is read back from the bytes it was put together
from. -/
theorem headerParseRecordsItsFields : Obligations.HeaderParseRecordsItsFields := by
  intro s hinputs hbusy hpending hlen
  obtain ⟨hmarker, hresv, hdecl, hwarnMarker, hwarnResv⟩ := headerParse_records hlen
  refine ⟨headerParse s, ?_, fun i hi => ?_, fun i hi => ?_, ?_, ?_, ?_⟩
  · rw [step_of_no_inputs hinputs, engineStep_of_hdrPending hbusy hpending]
  · rw [hmarker, extractByte_four (streamByte s) hi]
  · rw [hresv, extractByte_two (fun j => streamByte s (6 + j)) hi]
  · rw [hdecl, toNat_append_byte]
  · rw [hwarnMarker, markerDiffers_iff]
  · rw [hwarnResv, reservedDiffers_iff]

end Sys2Proof.Machine
end

section
/-! PROOF. The opcode byte selects the instruction and its length, and the fields of a `COPY` as numbers (spec R112,
R116, R117, R119). -/

namespace Sys2Proof

/-! ## The fields of a `COPY` as numbers (spec R115 to R117) -/

/-- The field `L`: the low nibble of the next byte, as the datapath masks it out (spec R115, R238). -/
theorem toNat_and_lowNibble (n : Byte) : (n &&& 0x0F#8).toNat = n.toNat % 16 :=
  Nat.and_two_pow_sub_one_eq_mod n.toNat 4

/-- The field `K`: the high nibble of the next byte, as the datapath shifts it down (spec R115, R238). -/
theorem toNat_highNibble (n : Byte) : (n >>> 4).toNat = n.toNat / 16 := by
  rw [BitVec.toNat_ushiftRight, Nat.shiftRight_eq_div_pow]

/-- The field `H`: the 8-bit difference does not wrap in the range of `COPY` (spec R115, R238). -/
theorem toNat_sub_copyBase {b : Byte} (hb : 0x3C ≤ b.toNat) : (b - 0x3C#8).toNat = b.toNat - 0x3C :=
  BitVec.toNat_sub_of_le hb

/-- The shift by 4 leaves room for exactly the low nibble, so that the or is a sum, and 12 bits hold it (spec R116). -/
theorem copyOffsetField_toNat {b : Byte} (hb : 0x3C ≤ b.toNat) (n : Byte) :
    (copyOffsetField b n).toNat = (b.toNat - 0x3C) * 16 + n.toNat % 16 := by
  have hH : ((b - 0x3C#8).setWidth 12 <<< 4).toNat = (b.toNat - 0x3C) <<< 4 := by
    rw [BitVec.toNat_shiftLeft, BitVec.toNat_setWidth, toNat_sub_copyBase hb, Nat.shiftLeft_eq, Nat.shiftLeft_eq]
    omega
  have hL : ((n &&& 0x0F#8).setWidth 12).toNat = n.toNat % 16 := by
    rw [BitVec.toNat_setWidth, toNat_and_lowNibble]; omega
  rw [copyOffsetField, BitVec.toNat_or, hH, hL,
    ← Nat.shiftLeft_add_eq_or_of_lt (Nat.mod_lt _ (by decide : 0 < 2 ^ 4)), Nat.shiftLeft_eq]

/-- `K` + 2 is at most 17, so that 5 bits hold it (spec R117). -/
theorem copyLengthField_toNat (n : Byte) : (copyLengthField n).toNat = n.toNat / 16 + 2 := by
  rw [copyLengthField, BitVec.toNat_add, BitVec.toNat_setWidth, toNat_highNibble, BitVec.toNat_ofNat]
  omega

/-! ## The three ranges of the opcode byte (spec R112, R119) -/

theorem instrLength_lit : instrLength 0x00#8 = 2 := rfl

theorem instrLength_lut {b : Byte} (hb : 1 ≤ b.toNat) (hb' : b.toNat ≤ 0x3B) : instrLength b = 1 := by
  rw [instrLength, if_neg (by omega), if_pos hb']

theorem instrLength_copy {b : Byte} (hb : 0x3C ≤ b.toNat) : instrLength b = 2 := by
  rw [instrLength, if_neg (by omega), if_neg (by omega)]

theorem decodeOp_lit (n : Byte) : decodeOp 0x00#8 n = .lit n := rfl

theorem decodeOp_lut {b : Byte} (hb : 1 ≤ b.toNat) (hb' : b.toNat < 60) (n : Byte) :
    decodeOp b n = .lut ⟨b.toNat, hb'⟩ := by
  rw [decodeOp, if_neg (by omega), dif_pos hb']

theorem decodeOp_copy {b : Byte} (hb : 0x3C ≤ b.toNat) (n : Byte) :
    decodeOp b n = .copy (copyOffsetField b n) (copyLengthField n) := by
  rw [decodeOp, if_neg (by omega), dif_neg (by omega)]

/-! ## The statements -/

/-- Settles O4: one range of R119 for each part. -/
theorem opcodeByteSelectsInstructionAndLength : Obligations.OpcodeByteSelectsInstructionAndLength := by
  intro b n
  refine ⟨?lit, fun hb hb' => ?lut, fun hb => ?copy⟩
  case lit =>
    rintro rfl
    exact ⟨decodeOp_lit n, instrLength_lit⟩
  case lut =>
    have h60 : b.toNat < 60 := by omega
    exact ⟨⟨b.toNat, h60⟩, rfl, decodeOp_lut hb h60 n, instrLength_lut hb hb'⟩
  case copy =>
    exact ⟨copyOffsetField b n, copyLengthField n, copyOffsetField_toNat hb n, copyLengthField_toNat n,
      decodeOp_copy hb n, instrLength_copy hb⟩

/-- Settles O5: with both fields as numbers, the ranges and the bytes that reach their ends are arithmetic on `H` ≤ 195
and the two nibbles. -/
theorem copyOffsetAndLengthAreTheirBitFields : Obligations.CopyOffsetAndLengthAreTheirBitFields := by
  intro b n hb
  have hfirst : b = 0x3C#8 ↔ b.toNat = 0x3C := BitVec.toNat_inj.symm
  have hlast : b = 0xFF#8 ↔ b.toNat = 0xFF := BitVec.toNat_inj.symm
  have hb8 : b.toNat < 256 := b.isLt
  have hn8 : n.toNat < 256 := n.isLt
  rw [copyOffsetField_toNat hb, copyLengthField_toNat, hfirst, hlast]
  refine ⟨rfl, ?offsetBound, ?offsetFirst, ?offsetLast, rfl, ?lengthLower, ?lengthUpper, ?lengthFirst, ?lengthLast⟩
  all_goals omega

end Sys2Proof
end

section
/-! PROOF. How the header parse ends: too few bytes, a mismatch in strict mode, or the decode loop (spec R152, R156,
R158). -/

namespace Sys2Proof.Machine

/-! ## The step and the halt -/

/-- The step after START, with no other move waiting, is the header parse (spec R150). -/
theorem step_of_hdrPending {s : State} (hin : s.inputs = []) (hb : s.status.state = .busy)
    (hp : s.hdrPending = true) : step s = .next (headerParse s) := by
  rw [step_of_no_inputs hin, engineStep_of_hdrPending hb hp]

/-- A header error gives no info, so that `FAULT` stays as it was (spec R276). -/
theorem raiseError_none_spec (e : Err) (s : State) : HaltedWith e s.faultReg s (raiseError e none s) :=
  raiseError_spec e s.faultReg s

/-- A halt that leaves `FAULT` leaves the result registers clear. -/
theorem resultsClear_of_haltFrame {s t : State} (hframe : HaltFrame s t) (hfault : t.faultReg = s.faultReg)
    (hclear : ResultsClear s) : ResultsClear t := by
  obtain ⟨-, ⟨hdecl, hmarker, hresv, -⟩, hcursor, houtLen, hcount, -⟩ := hframe
  rwa [ResultsClear, hdecl, hmarker, hresv, hcursor, houtLen, hcount, hfault]

/-! ## The three ends of the parse -/

/-- The state after the eight header bytes are loaded and before the strict checks (spec R151). -/
def loadedHeader (s : State) : State :=
  headerLoad (streamByte s 0) (streamByte s 1) (streamByte s 2) (streamByte s 3) (streamByte s 4) (streamByte s 5)
    (streamByte s 6) (streamByte s 7) s

theorem headerParse_of_short {s : State} (h : s.streamLen.toNat < 8) :
    headerParse s = raiseError .headerTruncated none { s with hdrPending := false } := by
  obtain ⟨-, hparse⟩ | ⟨hlong, -⟩ := headerParse_cases s
  · exact hparse
  · omega

/-- A mismatch in strict mode halts after the load, with the error of the marker when that differs, else with that of
the reserved bytes (spec R156). -/
theorem headerParse_halts_of_strict_mismatch {s : State} (h : 8 ≤ s.streamLen.toNat) (hstrict : s.ctrl.strict = true)
    (hwarn : (loadedHeader s).status.warnMarker = true ∨ (loadedHeader s).status.warnResv = true) :
    HaltedWith (if (loadedHeader s).status.warnMarker then .markerMismatch else .reservedNonzero) s.faultReg
      (loadedHeader s) (headerParse s) := by
  obtain ⟨hshort, -⟩ | ⟨-, l, hl, ⟨-, hmarker, hparse⟩ | ⟨-, hmarker, -, hparse⟩ | ⟨hnone, -⟩⟩ :=
    headerParse_cases s
  · omega
  all_goals obtain rfl : l = loadedHeader s := hl
  · rw [hparse, if_pos hmarker]
    exact raiseError_none_spec _ _
  · rw [hparse, if_neg (by simp [hmarker])]
    exact raiseError_none_spec _ _
  · have ⟨hmarker, hresv⟩ := hnone.resolve_left (by simp [hstrict])
    simp [hmarker, hresv] at hwarn

theorem headerParse_of_no_error {s : State} (h : 8 ≤ s.streamLen.toNat)
    (hnone : s.ctrl.strict = false ∨
      ((loadedHeader s).status.warnMarker = false ∧ (loadedHeader s).status.warnResv = false)) :
    headerParse s = { loadedHeader s with cursor := 8#32 } := by
  obtain ⟨hshort, -⟩ | ⟨-, l, hl, ⟨hstrict, hmarker, -⟩ | ⟨hstrict, -, hresv, -⟩ | ⟨-, hparse⟩⟩ :=
    headerParse_cases s
  · omega
  all_goals obtain rfl : l = loadedHeader s := hl
  · simp [hstrict, hmarker] at hnone
  · simp [hstrict, hresv] at hnone
  · exact hparse

/-! ## The statements -/

/-- Settles O29: the parse is the error halt alone, which is the same whatever the stream holds. -/
theorem shortHeaderHalts : Obligations.ShortHeaderHalts := by
  intro s hin hb hp hclear hshort
  obtain ⟨hstate, hterm, herr, hfault, hdone, -, hframe⟩ :=
    raiseError_none_spec .headerTruncated { s with hdrPending := false }
  refine ⟨_, ?step, hstate, hterm, herr, resultsClear_of_haltFrame hframe hfault hclear, hdone, fun m => ?anyStream⟩
  case step => rw [step_of_hdrPending hin hb hp, headerParse_of_short hshort]
  case anyStream =>
    rw [step_of_hdrPending (s := { s with stream := m }) hin hb hp,
      headerParse_of_short (s := { s with stream := m }) hshort]
    rfl

/-- Settles O31: the strict parse is the halt after the load, and the load is the one of soft mode. -/
theorem strictModeMakesMismatchesFatal : Obligations.StrictModeMakesMismatchesFatal := by
  rintro s marker reserved hin hb hp ⟨-, -, -, hcursor0, houtLen0, hcount0, hfault0⟩ hlen hstrict hmarker hreserved
    hmismatch
  have hwarnM : (loadedHeader s).status.warnMarker = true ↔ marker := (markerDiffers_iff ..).trans hmarker.symm
  have hwarnR : (loadedHeader s).status.warnResv = true ↔ reserved := (reservedDiffers_iff ..).trans hreserved.symm
  obtain ⟨hstate, hterm, herr, hfault, hdone, -, -, -, hcursor, houtLen, hcount, -, hkeepM, hkeepR⟩ :=
    headerParse_halts_of_strict_mismatch hlen hstrict (hmismatch.imp hwarnM.2 hwarnR.2)
  obtain ⟨hM, hR, hD, hwM, hwR⟩ := headerParse_records hlen
  obtain ⟨hM', hR', hD', hwM', hwR'⟩ :=
    headerParse_records (s := { s with ctrl := { s.ctrl with strict := false } }) hlen
  refine ⟨headerParse s, _, step_of_hdrPending hin hb hp, hstate, hterm, hdone, fun h => ?markerFirst,
    fun h => ?thenReserved, hcursor.trans hcursor0, houtLen.trans houtLen0, hcount.trans hcount0,
    hfault.trans hfault0, hkeepM ▸ hwarnM, hkeepR ▸ hwarnR, step_of_hdrPending hin hb hp,
    hD.trans hD'.symm, hM.trans hM'.symm, hR.trans hR'.symm, hwM.trans hwM'.symm, hwR.trans hwR'.symm⟩
  case markerFirst => rw [herr, if_pos (hwarnM.2 h)]
  case thenReserved => rw [herr, if_neg (mt hwarnM.1 h)]

/-- Settles O32: each way to raise nothing leaves the loaded state at the entry point. -/
theorem headerParseEntersTheLoopAtEight : Obligations.HeaderParseEntersTheLoopAtEight := by
  rintro s hin hb hp ⟨-, -, -, -, houtLen0, hcount0, -⟩ hlen hnone
  have hparse : headerParse s = { loadedHeader s with cursor := 8#32 } := by
    refine headerParse_of_no_error hlen (hnone.imp_right fun ⟨h0, h1, h2, h3, h6, h7⟩ => ?_)
    simp [loadedHeader, markerDiffers, reservedDiffers, h0, h1, h2, h3, h6, h7]
  refine ⟨_, (step_of_hdrPending hin hb hp).trans (congrArg _ hparse), rfl, houtLen0, hcount0, ?output,
    toNat_append_byte _ _, ⟨hb, rfl⟩, rfl, rfl, rfl⟩
  case output => simp [State.output, loadedHeader, houtLen0]

end Sys2Proof.Machine
end

section
/-! PROOF. The termination checks of the loop step: one equation for each way it goes, and the two checks that come first
(spec R180 to R184). -/

namespace Sys2Proof.Machine

/-! ## The ways of the loop step -/

theorem loopStep_of_lengthReached {s : State} (h : s.declLen.toNat ≤ s.outLen.toNat) :
    loopStep s = .next (terminate .lengthReached s) := by
  obtain ⟨-, hstep⟩ | ⟨hshort, -⟩ | ⟨hshort, -⟩ | ⟨⟨hshort, -⟩, -⟩ := loopStep_cases (s := s) rfl
  · exact hstep
  all_goals omega

theorem loopStep_of_inputExhausted {s : State} (hshort : s.outLen.toNat < s.declLen.toNat)
    (hend : s.streamLen.toNat ≤ s.cursor.toNat) : loopStep s = .next (terminate .inputExhausted s) := by
  obtain ⟨hlong, -⟩ | ⟨-, -, hstep⟩ | ⟨-, hmore, -⟩ | ⟨⟨-, hmore, -⟩, -⟩ := loopStep_cases (s := s) rfl
  · omega
  · exact hstep
  all_goals omega

theorem loopStep_of_limitReached {s : State} (hshort : s.outLen.toNat < s.declLen.toNat)
    (hmore : s.cursor.toNat < s.streamLen.toNat) (hlimit : limitReached s = true) :
    loopStep s = .next (terminate .limitReached s) := by
  obtain ⟨hlong, -⟩ | ⟨-, hend, -⟩ | ⟨-, -, -, hstep⟩ | ⟨⟨-, -, hnot⟩, -⟩ := loopStep_cases (s := s) rfl
  · omega
  · omega
  · exact hstep
  · rw [hlimit] at hnot; cases hnot

theorem loopStep_of_reachesInstruction {s : State} (h : ReachesInstruction s) :
    loopStep s = exec (fetchInstr s) s := by
  obtain ⟨hshort, hmore, hnot⟩ := h
  obtain ⟨hlong, -⟩ | ⟨-, hend, -⟩ | ⟨-, -, hlimit, -⟩ | ⟨-, hstep⟩ := loopStep_cases (s := s) rfl
  · omega
  · omega
  · rw [hlimit] at hnot; cases hnot
  · exact hstep

/-- In the decode loop, with no other move waiting, the step is the loop step (spec R180). -/
theorem step_of_inLoop {s : State} (hin : s.inputs = []) (hloop : InLoop s) : step s = loopStep s := by
  rw [step_of_no_inputs hin]
  obtain ⟨hbusy, hpending⟩ := hloop
  obtain ⟨-, hp, -⟩ | ⟨-, hstep⟩ | ⟨hidle, -⟩ := engineStep_cases s
  · rw [hpending] at hp; cases hp
  · exact hstep
  · exact absurd hbusy hidle

/-! ## The statements -/

/-- Settles O9: the check comes first, so nothing is asked of the other two; every output reaches a declared length of
0. -/
theorem declaredLengthReachedTerminates : Obligations.DeclaredLengthReachedTerminates := by
  intro s hin hloop hdecl
  have hreached : s.declLen.toNat ≤ s.outLen.toNat := by
    obtain h | h := hdecl
    · exact h
    · simp [h]
  exact ⟨_, (step_of_inLoop hin hloop).trans (loopStep_of_lengthReached hreached), terminate_spec _ s, rfl⟩

/-- Settles O10: the second check of the loop step. -/
theorem exhaustedInputTerminates : Obligations.ExhaustedInputTerminates := by
  intro s hin hloop hshort hend
  exact ⟨_, (step_of_inLoop hin hloop).trans (loopStep_of_inputExhausted hshort hend), terminate_spec _ s⟩

end Sys2Proof.Machine
end

section
/-! PROOF. A decode is a function of the stream and the options (spec R194): two states that agree on what a decode reads
and on what it has produced so far are taken by every move of the decode to two such states. -/

namespace Sys2Proof.Machine

/-! ## The output after a commit (spec R97, R98) -/

/-- A commit in the decode loop appends its fragment to the decoded output and leaves what was there. -/
theorem output_committedState {s : State} {src : AppendSource} {k adv : Nat} {i : Instr} (hk : k < 32)
    (ho : s.outLen.toNat < 65536) :
    (committedState s src k adv i).output = s.output ++ appendFragment s src k := by
  have hlen : (committedState s src k adv i).outLen.toNat = s.outLen.toNat + k := by
    simp only [committedState, commit_outLen, insnRecord_fragLen, BitVec.toNat_add, BitVec.toNat_setWidth,
      BitVec.toNat_ofNat]
    omega
  have hold : ∀ a ∈ List.range s.outLen.toNat, outByte (committedState s src k adv i) a = outByte s a := by
    intro a ha
    have ha : a < s.outLen.toNat := List.mem_range.1 ha
    simp only [outByte, committedState, commit_out, commit_outEpoch, lookup_writeBytes_outside _ _ _ _ (.inl ha)]
  have hnew : ∀ j ∈ List.range k, outByte (committedState s src k adv i) (s.outLen.toNat + j) = appendData s src j := by
    intro j hj
    have hj : j < (appendFragment s src k).length := by simpa using hj
    simp only [outByte, committedState, commit_out, lookup_writeBytes_inside _ _ _ _ hj, Option.getD_some,
      appendFragment_get]
  rw [State.output, hlen, List.range_add, List.map_append, List.map_map, List.map_congr_left hold]
  exact congrArg _ (List.map_congr_left hnew)

/-! ## Agreement -/

/-- Two states agree in a decode: on its input (spec R194), on its options, and on its result so far, the output among
it. -/
structure DecodeAgree (s s' : State) : Prop where
  input : SameDecodeInput s s'
  ctrl : s.ctrl = s'.ctrl
  result : decodeResult s = decodeResult s'

/-- Two outcomes agree: next states that agree, or one stop. -/
inductive OutcomesAgree :
    Host.Outcome State Fault Refusal → Host.Outcome State Fault Refusal → Prop where
  | next {s s' : State} (h : DecodeAgree s s') : OutcomesAgree (.next s) (.next s')
  | fault (r : Fault) : OutcomesAgree (.fault r) (.fault r)
  | refused (r : Refusal) : OutcomesAgree (.refused r) (.refused r)

section
variable {s s' : State}

/-! ### What agreeing states have in common -/

theorem DecodeAgree.streamLen (h : DecodeAgree s s') : s.streamLen = s'.streamLen := h.input.1

theorem DecodeAgree.maxInsns (h : DecodeAgree s s') : s.maxInsns = s'.maxInsns := h.input.2.1

theorem DecodeAgree.streamByte (h : DecodeAgree s s') {a : Nat} (ha : a < s.streamLen.toNat) :
    streamByte s a = streamByte s' a := h.input.2.2 a ha

theorem DecodeAgree.status (h : DecodeAgree s s') : s.status = s'.status := congrArg DecodeResult.status h.result

theorem DecodeAgree.declLen (h : DecodeAgree s s') : s.declLen = s'.declLen := congrArg DecodeResult.declLen h.result

theorem DecodeAgree.cursor (h : DecodeAgree s s') : s.cursor = s'.cursor := congrArg DecodeResult.cursor h.result

theorem DecodeAgree.outLen (h : DecodeAgree s s') : s.outLen = s'.outLen := congrArg DecodeResult.outLen h.result

theorem DecodeAgree.insnCount (h : DecodeAgree s s') : s.insnCount = s'.insnCount :=
  congrArg DecodeResult.insnCount h.result

theorem DecodeAgree.output (h : DecodeAgree s s') : s.output = s'.output := congrArg DecodeResult.output h.result

theorem DecodeAgree.busy (h : DecodeAgree s s') : s.busy = s'.busy := by rw [State.busy, State.busy, h.status]

theorem DecodeAgree.outByte (h : DecodeAgree s s') {a : Nat} (ha : a < s.outLen.toNat) :
    outByte s a = outByte s' a := by
  have hout := h.output
  rw [State.output, State.output, ← h.outLen] at hout
  exact List.map_inj_left.1 hout a (List.mem_range.2 ha)

theorem DecodeAgree.copyStart (h : DecodeAgree s s') (offset : BitVec 12) :
    copyStart s offset = copyStart s' offset := by
  rw [Machine.copyStart, Machine.copyStart, h.outLen]

theorem DecodeAgree.copyCount (h : DecodeAgree s s') (length : BitVec 5) :
    copyCount s length = copyCount s' length := by
  rw [Machine.copyCount, Machine.copyCount, h.ctrl, h.declLen, h.outLen]

theorem DecodeAgree.limitReached (h : DecodeAgree s s') : limitReached s = limitReached s' := by
  rw [Machine.limitReached, Machine.limitReached, h.ctrl, h.maxInsns, h.insnCount]

/-- The fetch reads no byte at or above `STREAM_LEN` (spec R38). -/
theorem DecodeAgree.fetchInstr (h : DecodeAgree s s') (hmore : s.cursor.toNat < s.streamLen.toNat) :
    fetchInstr s = fetchInstr s' := by
  have hop : fetchOpcode s = fetchOpcode s' := by
    rw [fetchOpcode, fetchOpcode, ← h.cursor, h.streamByte hmore]
  have hnext : fetchNext s = fetchNext s' := by
    simp only [fetchNext, hasNextByte_iff, ← h.cursor, ← h.streamLen]
    split
    · next hlt => exact h.streamByte hlt
    · rfl
  rw [Machine.fetchInstr, Machine.fetchInstr, hop, hnext]

/-! ### The operations keep agreement -/

theorem DecodeAgree.terminate (h : DecodeAgree s s') (r : Term) :
    DecodeAgree (terminate r s) (terminate r s') where
  input := h.input
  ctrl := h.ctrl
  result := congrArg (fun d => { d with status := { d.status with state := .done, term := r } }) h.result

theorem DecodeAgree.raiseError (h : DecodeAgree s s') (e : Err) (f : Option FaultInfo) :
    DecodeAgree (raiseError e f s) (raiseError e f s') where
  input := h.input
  ctrl := h.ctrl
  result := congrArg (fun d => { d with
    status := { d.status with state := .error, term := .error, err := e }, fault := f.getD d.fault }) h.result

/-- Commits agree when they append the same bytes, whatever else the output buffers hold (spec R97, R100). -/
theorem DecodeAgree.committedState (h : DecodeAgree s s') {src : AppendSource} {k : Nat} (adv : Nat) (i : Instr)
    (hk : k < 32) (ho : s.outLen.toNat < 65536) (hdata : ∀ j < k, appendData s src j = appendData s' src j) :
    DecodeAgree (committedState s src k adv i) (committedState s' src k adv i) where
  input := h.input
  ctrl := h.ctrl
  result := by
    have hbytes : appendFragment s src k = appendFragment s' src k :=
      List.map_congr_left fun j hj => hdata j (List.mem_range.1 hj)
    have hout : (Machine.committedState s src k adv i).output = (Machine.committedState s' src k adv i).output := by
      rw [output_committedState hk ho, output_committedState hk (h.outLen ▸ ho), h.output, hbytes]
    have hlen : (Machine.committedState s src k adv i).outLen = (Machine.committedState s' src k adv i).outLen := by
      simp only [Machine.committedState, commit_outLen, insnRecord_fragLen, h.outLen]
    rw [decodeResult, decodeResult, hout, hlen]
    exact congrArg (fun d : DecodeResult => { d with
      cursor := d.cursor + BitVec.ofNat 32 adv
      outLen := (Machine.committedState s' src k adv i).outLen
      insnCount := d.insnCount + 1#16
      output := (Machine.committedState s' src k adv i).output }) h.result

/-! ### The instructions -/

theorem execLit_agree (h : DecodeAgree s s') (ho : s.outLen.toNat < 65536) (v : Byte) :
    OutcomesAgree (execLit v s) (execLit v s') := by
  rw [execLit_eq, execLit_eq, ← h.cursor, ← h.streamLen, ← h.outLen]
  split
  · split
    · exact .next (h.committedState _ _ (by omega) ho fun _ _ => rfl)
    · exact .fault _
  · exact .next (h.raiseError _ _)

theorem execLut_agree (h : DecodeAgree s s') (ho : s.outLen.toNat < 65536) (i : Fin 60) :
    OutcomesAgree (execLut i s) (execLut i s') := by
  rw [execLut_eq, execLut_eq, ← h.outLen]
  split
  · exact .next (h.committedState _ _ (by omega) ho fun _ _ => rfl)
  · exact .fault _

/-- A valid span lies wholly in the decoded output, so that the copied bytes agree (spec R233, R234). -/
theorem execCopy_agree (h : DecodeAgree s s') (ho : s.outLen.toNat < 65536) (offset : BitVec 12)
    (length : BitVec 5) : OutcomesAgree (execCopy offset length s) (execCopy offset length s') := by
  rw [execCopy_eq, execCopy_eq, ← h.cursor, ← h.streamLen, ← h.outLen, ← h.copyStart, ← h.copyCount]
  split
  · split
    · next hvalid =>
      split
      · refine .next (h.committedState _ _ (copyCount_lt s length) ho fun j hj => h.outByte ?_)
        have hcount := copyCount_le s length
        rw [copyStart_toNat ((spanValid_iff s offset length).2 hvalid)]
        omega
      · exact .fault _
    · exact .next (h.raiseError _ _)
  · exact .next (h.raiseError _ _)

theorem exec_agree (h : DecodeAgree s s') (ho : s.outLen.toNat < 65536) (i : Instr) :
    OutcomesAgree (exec i s) (exec i s') := by
  cases i with
  | lit v => exact execLit_agree h ho v
  | lut i => exact execLut_agree h ho i
  | copy offset length => exact execCopy_agree h ho offset length

/-! ### The decode -/

theorem loopStep_agree (h : DecodeAgree s s') : OutcomesAgree (loopStep s) (loopStep s') := by
  obtain ⟨hlong, hstep⟩ | ⟨hshort, hend, hstep⟩ | ⟨hshort, hmore, hlimit, hstep⟩ |
    ⟨⟨hshort, hmore, hnot⟩, hstep⟩ := loopStep_cases (s := s) rfl
  · rw [hstep, loopStep_of_lengthReached (by rwa [← h.declLen, ← h.outLen])]
    exact .next (h.terminate _)
  · rw [hstep, loopStep_of_inputExhausted (by rwa [← h.declLen, ← h.outLen]) (by rwa [← h.streamLen, ← h.cursor])]
    exact .next (h.terminate _)
  · rw [hstep, loopStep_of_limitReached (by rwa [← h.declLen, ← h.outLen]) (by rwa [← h.streamLen, ← h.cursor])
      (by rwa [← h.limitReached])]
    exact .next (h.terminate _)
  · have hreach' : ReachesInstruction s' := by
      rw [ReachesInstruction, ← h.declLen, ← h.outLen, ← h.streamLen, ← h.cursor, ← h.limitReached]
      exact ⟨hshort, hmore, hnot⟩
    rw [hstep, loopStep_of_reachesInstruction hreach', ← h.fetchInstr hmore]
    exact exec_agree h (by omega) _

theorem runLoop_agree (n : Nat) (h : DecodeAgree s s') : OutcomesAgree (runLoop n s) (runLoop n s') := by
  induction n generalizing s s' with
  | zero => exact .next h
  | succ n ih =>
    rw [runLoop, runLoop, ← h.busy]
    split
    · have hstep := loopStep_agree h
      generalize loopStep s = o, loopStep s' = o' at hstep
      cases hstep with
      | next ht => exact ih ht
      | fault r => exact .fault r
      | refused r => exact .refused r
    · exact .next h

/-- START clears what an earlier decode produced, so that only the input has to agree (spec R150). -/
theorem startCommand_agree (w : Word) (h : SameDecodeInput s s') :
    DecodeAgree (startCommand w s) (startCommand w s') :=
  ⟨h, rfl, rfl⟩

theorem headerLoad_agree (b0 b1 b2 b3 b4 b5 b6 b7 : Byte) (h : DecodeAgree s s') :
    DecodeAgree (headerLoad b0 b1 b2 b3 b4 b5 b6 b7 s) (headerLoad b0 b1 b2 b3 b4 b5 b6 b7 s') where
  input := h.input
  ctrl := h.ctrl
  result := congrArg (fun d : DecodeResult => { d with
    marker := b3 ++ b2 ++ b1 ++ b0
    declLen := b4 ++ b5
    resv := b7 ++ b6
    status := { d.status with
      warnMarker := markerDiffers b0 b1 b2 b3
      warnResv := reservedDiffers b6 b7 } }) h.result

/-- A choice between two states by conditions that say the same. -/
theorem DecodeAgree.ite {c c' : Prop} [Decidable c] [Decidable c'] {u u' : State} (hc : c ↔ c')
    (hpos : c → DecodeAgree s s') (hneg : ¬ c → DecodeAgree u u') :
    DecodeAgree (if c then s else u) (if c' then s' else u') := by
  simp only [← hc]
  split
  · next h => exact hpos h
  · next h => exact hneg h

theorem headerFinish_agree (h : DecodeAgree s s') : DecodeAgree (headerFinish s) (headerFinish s') := by
  unfold headerFinish
  refine .ite (by rw [h.ctrl, h.status]) (fun _ => h.raiseError _ _) fun _ => ?noMarkerError
  refine .ite (by rw [h.ctrl, h.status]) (fun _ => h.raiseError _ _) fun _ => ?noError
  exact ⟨h.input, h.ctrl, congrArg (fun d => { d with cursor := 8#32 }) h.result⟩

/-- The parse reads the eight header bytes, and only where the stream has them (spec R152). -/
theorem headerParse_agree (h : DecodeAgree s s') : DecodeAgree (headerParse s) (headerParse s') := by
  unfold headerParse
  refine .ite (by rw [h.streamLen]) (fun _ => ?short) fun hlong => ?long
  case short =>
    have hpending : DecodeAgree { s with hdrPending := false } { s' with hdrPending := false } :=
      ⟨h.input, h.ctrl, h.result⟩
    exact hpending.raiseError _ _
  case long =>
    have hbyte : ∀ a < 8, streamByte s a = streamByte s' a := fun a ha => h.streamByte (by omega)
    rw [hbyte 0 (by omega), hbyte 1 (by omega), hbyte 2 (by omega), hbyte 3 (by omega), hbyte 4 (by omega),
      hbyte 5 (by omega), hbyte 6 (by omega), hbyte 7 (by omega)]
    exact headerFinish_agree (headerLoad_agree _ _ _ _ _ _ _ _ h)

theorem decodeRun_agree (w : Word) (h : SameDecodeInput s s') :
    OutcomesAgree (decodeRun w s) (decodeRun w s') := by
  have hparse := headerParse_agree (startCommand_agree w h)
  rw [decodeRun, decodeRun, ← hparse.declLen]
  exact runLoop_agree _ hparse

end

/-! ## The statement -/

/-- Settles O36: agreement at START, kept through the header parse and the loop, is agreement of the results. -/
theorem decodeIsAFunctionOfItsInput : Obligations.DecodeIsAFunctionOfItsInput := by
  intro w s s' t hinput hrun
  have hagree := decodeRun_agree w hinput
  rw [hrun] at hagree
  generalize hrun' : decodeRun w s' = o at hagree
  cases hagree with
  | next ht => exact ⟨_, rfl, ht.result.symm⟩

end Sys2Proof.Machine
end

section
/-! PROOF. The truncated literal escape (spec R212). -/

namespace Sys2Proof.Machine

/-- What the error of a literal escape without its operand records: the operand the decoder was given does not show
(spec R212). -/
theorem faultNoNext_lit (v : Byte) : faultNoNext (.lit v) = ⟨0x00#8, 0#8, false⟩ := rfl

/-- The branch of `execLit_eq` that appends needs a byte behind the opcode byte. -/
theorem execLit_of_noNextByte (v : Byte) {s : State} (hlast : s.streamLen.toNat ≤ s.cursor.toNat + 1) :
    execLit v s = .next (raiseError .truncatedInstruction (some ⟨0x00#8, 0#8, false⟩) s) := by
  rw [execLit_eq, if_neg (Nat.not_lt.2 hlast), faultNoNext_lit]

/-- Settles O15: `LIT` finds no operand byte and raises the error, and an error halt leaves `CURSOR`, `OUT_LEN` and O
unchanged (`raiseError_spec`). -/
theorem truncatedLiteralHalts : Obligations.TruncatedLiteralHalts := by
  intro v s hlast
  have hexec : exec (.lit v) s = execLit v s := rfl
  exact ⟨_, hexec.trans (execLit_of_noNextByte v hlast), raiseError_spec _ _ s⟩

end Sys2Proof.Machine
end

section
/-! PROOF. The step that decodes a lookup byte (spec R220, R221). -/

namespace Sys2Proof.Machine

/-- In the lookup range the opcode byte is the index, and the next byte plays no part (spec R114, R119). -/
theorem fetchInstr_of_lutByte {s : State} {i : Fin 60} (hi : i.val ≠ 0)
    (hbyte : streamByte s s.cursor.toNat = BitVec.ofNat 8 i.val) : fetchInstr s = .lut i := by
  have hval : (fetchOpcode s).toNat = i.val := by
    rw [fetchOpcode, hbyte, BitVec.toNat_ofNat]
    omega
  have hlt : (fetchOpcode s).toNat < 60 := hval ▸ i.isLt
  rw [fetchInstr, decodeOp_lut (by omega) hlt]
  exact congrArg Instr.lut (Fin.ext hval)

/-- A 16-bit `DECL_LEN` not yet reached leaves room in the output buffer, so `LUT` always commits (spec R12, R220). -/
theorem execLut_of_outLen_lt {s : State} (i : Fin 60) (hshort : s.outLen.toNat < s.declLen.toNat) :
    execLut i s = .next (committedState s (.table i) 1 1 (.lut i)) := by
  have hcap := outCap_ge
  rw [execLut_eq, if_pos (by omega)]

/-- Settles O17: the loop step runs `LUT b`, whose commit selects entry b of the table whatever the state is
(`appendData`). -/
theorem lookupStepAppendsTheEntryOfItsByte : Obligations.LookupStepAppendsTheEntryOfItsByte := by
  intro s b hin hloop hreach hb hbyte
  have ⟨hshort, hmore, _⟩ := hreach
  have hstep : step s = .next (committedState s (.table b) 1 1 (.lut b)) :=
    calc step s = exec (fetchInstr s) s := by rw [step_of_inLoop hin hloop, loopStep_of_reachesInstruction hreach]
      _ = execLut b s := by rw [fetchInstr_of_lutByte hb hbyte]; rfl
      _ = _ := execLut_of_outLen_lt b hshort
  obtain ⟨hcommitted, hdata, -⟩ :=
    committedState_spec (s := s) (src := .table b) (k := 1) (adv := 1) (i := .lut b) (by omega) (by omega) (by omega)
  exact ⟨_, hstep, hcommitted, hdata 0 Nat.zero_lt_one⟩

end Sys2Proof.Machine
end

section
/-! PROOF. The back-reference: its two bytes rebuilt from its fields, its three ends, and what each leaves (spec R115 to
R117, R230 to R237). -/

namespace Sys2Proof

/-! ## The bytes of a `COPY` (spec R115, R122) -/

theorem wellFormed_copy_iff (offset : BitVec 12) (length : BitVec 5) :
    (Instr.copy offset length).wellFormed = true ↔
      offset.toNat ≤ 3135 ∧ 2 ≤ length.toNat ∧ length.toNat ≤ 17 := by
  simp [Instr.wellFormed, and_assoc]

/-- The opcode byte holds the upper eight bits of the offset, counted from 0x3C (spec R116, R122). -/
theorem opcodeByte_copy (offset : BitVec 12) (length : BitVec 5) :
    (Instr.copy offset length).opcodeByte = BitVec.ofNat 8 (0x3C + offset.toNat / 16) := by
  apply BitVec.eq_of_toNat_eq
  rw [Instr.opcodeByte, BitVec.toNat_add, BitVec.toNat_setWidth, BitVec.toNat_ushiftRight, Nat.shiftRight_eq_div_pow,
    BitVec.toNat_ofNat, BitVec.toNat_ofNat]
  omega

/-- `K` leaves the low nibble free for `L`, so that the or is a sum (spec R117, R122). -/
theorem nextByte_copy (offset : BitVec 12) {length : BitVec 5} (hlow : 2 ≤ length.toNat) (hhigh : length.toNat ≤ 17) :
    (Instr.copy offset length).nextByte = BitVec.ofNat 8 ((length.toNat - 2) * 16 + offset.toNat % 16) := by
  have hK : ((length - 2#5).setWidth 8 <<< 4).toNat = (length.toNat - 2) <<< 4 := by
    have hsub : (length - 2#5).toNat = length.toNat - 2 := BitVec.toNat_sub_of_le hlow
    rw [BitVec.toNat_shiftLeft, BitVec.toNat_setWidth, hsub, Nat.shiftLeft_eq, Nat.shiftLeft_eq]
    omega
  have hL : ((offset &&& 0x00F#12).setWidth 8).toNat = offset.toNat % 16 := by
    have hmask : (offset &&& 0x00F#12).toNat = offset.toNat % 16 := Nat.and_two_pow_sub_one_eq_mod offset.toNat 4
    rw [BitVec.toNat_setWidth, hmask]
    omega
  apply BitVec.eq_of_toNat_eq
  rw [Instr.nextByte, BitVec.toNat_or, hK, hL,
    ← Nat.shiftLeft_add_eq_or_of_lt (Nat.mod_lt _ (by decide : 0 < 2 ^ 4)), Nat.shiftLeft_eq, BitVec.toNat_ofNat]
  omega

/-- The fields of a decoded `COPY` give its opcode byte back (spec R115, R123). -/
theorem opcodeByte_copyFields {b : Byte} (hb : 0x3C ≤ b.toNat) (n : Byte) :
    (Instr.copy (copyOffsetField b n) (copyLengthField n)).opcodeByte = b := by
  have hH : 0x3C + ((b.toNat - 0x3C) * 16 + n.toNat % 16) / 16 = b.toNat := by omega
  rw [opcodeByte_copy, copyOffsetField_toNat hb, hH, BitVec.ofNat_toNat, BitVec.setWidth_eq]

/-- The fields of a decoded `COPY` give its next byte back (spec R115, R123). -/
theorem nextByte_copyFields {b : Byte} (hb : 0x3C ≤ b.toNat) (n : Byte) :
    (Instr.copy (copyOffsetField b n) (copyLengthField n)).nextByte = n := by
  have hlength := copyLengthField_toNat n
  have hKL : (n.toNat / 16 + 2 - 2) * 16 + ((b.toNat - 0x3C) * 16 + n.toNat % 16) % 16 = n.toNat := by omega
  rw [nextByte_copy _ (by omega) (by omega), copyOffsetField_toNat hb, hlength, hKL, BitVec.ofNat_toNat,
    BitVec.setWidth_eq]

namespace Machine

/-! ## The three ends of `COPY` (spec R230) -/

/-- A 16-bit `DECL_LEN` not yet reached leaves room in the output buffer for a whole span, so a valid `COPY` commits
(spec R12, R233, R236). -/
theorem execCopy_of_valid {offset : BitVec 12} {length : BitVec 5} {s : State} (hhigh : length.toNat ≤ 17)
    (hshort : s.outLen.toNat < s.declLen.toNat) (hnext : s.cursor.toNat + 1 < s.streamLen.toNat)
    (hspan : length.toNat ≤ offset.toNat ∧ offset.toNat ≤ s.outLen.toNat) :
    execCopy offset length s =
      .next (committedState s (.span (s.outLen.toNat - offset.toNat)) (copyCount s length) 2
        (.copy offset length)) := by
  have hcap := outCap_ge
  have hcount := copyCount_le s length
  have hstart := copyStart_toNat ((spanValid_iff s offset length).2 hspan)
  rw [execCopy_eq, if_pos hnext, if_pos hspan, if_pos (by omega), hstart]

/-- The span is checked once the next byte is there (spec R233, R278). -/
theorem execCopy_of_invalid {offset : BitVec 12} {length : BitVec 5} {s : State}
    (hnext : s.cursor.toNat + 1 < s.streamLen.toNat)
    (hspan : ¬ (length.toNat ≤ offset.toNat ∧ offset.toNat ≤ s.outLen.toNat)) :
    execCopy offset length s =
      .next (raiseError .invalidBackReference (some (faultWithNext (.copy offset length))) s) := by
  rw [execCopy_eq, if_pos hnext, if_neg hspan]

/-- Without a next byte the span is not looked at (spec R231, R278). -/
theorem execCopy_of_noNextByte (offset : BitVec 12) (length : BitVec 5) {s : State}
    (hlast : s.streamLen.toNat ≤ s.cursor.toNat + 1) :
    execCopy offset length s =
      .next (raiseError .truncatedInstruction (some (faultNoNext (.copy offset length))) s) := by
  rw [execCopy_eq, if_neg (Nat.not_lt.2 hlast)]

/-! ## The step at an opcode byte of `COPY` -/

theorem fetchNext_of_hasNextByte {s : State} (hnext : s.cursor.toNat + 1 < s.streamLen.toNat) :
    fetchNext s = streamByte s (s.cursor.toNat + 1) := by
  rw [fetchNext, if_pos ((hasNextByte_iff s).2 hnext)]

/-- The loop step runs the `COPY` of the two bytes the fetch answers (spec R119, R184). -/
theorem step_of_copyByte {s : State} (hin : s.inputs = []) (hloop : InLoop s) (hreach : ReachesInstruction s)
    (hb : 0x3C ≤ (fetchOpcode s).toNat) :
    step s = execCopy (copyOffsetField (fetchOpcode s) (fetchNext s)) (copyLengthField (fetchNext s)) s :=
  calc step s = exec (fetchInstr s) s := by rw [step_of_inLoop hin hloop, loopStep_of_reachesInstruction hreach]
    _ = exec (.copy (copyOffsetField (fetchOpcode s) (fetchNext s)) (copyLengthField (fetchNext s))) s := by
      rw [fetchInstr, decodeOp_copy hb]
    _ = _ := rfl

/-! ## The statements -/

/-- Settles O18: the append commits bytes that `appendData` reads from the state before, and the record's two bytes are
those of `opcodeByte_copy` and `nextByte_copy`. -/
theorem copyAppendsItsSpan : Obligations.CopyAppendsItsSpan := by
  intro offset length s hwf hshort hnext hlength hoffset
  obtain ⟨-, hlow, hhigh⟩ := (wellFormed_copy_iff offset length).1 hwf
  have hexec : exec (.copy offset length) s = execCopy offset length s := rfl
  obtain ⟨hcommitted, hdata, htrace⟩ :=
    committedState_spec (s := s) (src := .span (s.outLen.toNat - offset.toNat)) (k := copyCount s length) (adv := 2)
      (i := .copy offset length) (copyCount_lt s length) (by omega) (by omega)
  refine ⟨_, copyCount s length, hexec.trans (execCopy_of_valid hhigh hshort hnext ⟨hlength, hoffset⟩), rfl, hcommitted,
    hdata, ?_⟩
  rw [htrace, insnRecord, opcodeByte_copy, nextByte_copy offset hlow hhigh]

/-- Settles O19: whatever the fetch answers for the missing byte, the opcode byte comes back from the offset field. -/
theorem truncatedCopyHalts : Obligations.TruncatedCopyHalts := by
  intro s hin hloop hreach hb hlast
  refine ⟨_, (step_of_copyByte hin hloop hreach hb).trans (execCopy_of_noNextByte _ _ hlast), ?_⟩
  rw [faultNoNext, fetchOpcode, opcodeByte_copyFields hb]
  exact raiseError_spec _ _ s

/-- Settles O20: a negative start is an offset beyond the output, and a span that ends past the output is longer than
its offset. -/
theorem invalidCopyHaltsWithoutEffect : Obligations.InvalidCopyHaltsWithoutEffect := by
  rintro s b n start hin hloop hreach hnext rfl rfl hb rfl hinvalid
  have hspan : ¬ ((copyLengthField (fetchNext s)).toNat ≤ (copyOffsetField (fetchOpcode s) (fetchNext s)).toNat ∧
      (copyOffsetField (fetchOpcode s) (fetchNext s)).toNat ≤ s.outLen.toNat) := by
    rw [copyLengthField_toNat, fetchOpcode, copyOffsetField_toNat hb, fetchNext_of_hasNextByte hnext]
    omega
  refine ⟨_, (step_of_copyByte hin hloop hreach hb).trans (execCopy_of_invalid hnext hspan), ?_⟩
  rw [faultWithNext, fetchOpcode, fetchNext_of_hasNextByte hnext, opcodeByte_copyFields hb, nextByte_copyFields hb]
  exact raiseError_spec _ _ s

end Machine

end Sys2Proof
end

section
/-! PROOF. The encoding is a bijection between the well-formed instructions and their bytes (spec R112, R119 to
R123). -/

namespace Sys2Proof

/-! ## The opcode byte -/

/-- The three ranges of R119 cover every byte (spec R120). -/
theorem opcodeByte_ranges (b : Byte) :
    b = 0x00#8 ∨ (1 ≤ b.toNat ∧ b.toNat < 60) ∨ 0x3C ≤ b.toNat := by
  by_cases h : b.toNat = 0
  · exact .inl (BitVec.eq_of_toNat_eq h)
  · omega

theorem instrLength_eq_one_iff (b : Byte) : instrLength b = 1 ↔ 1 ≤ b.toNat ∧ b.toNat < 60 := by
  obtain rfl | ⟨hlow, hhigh⟩ | hcopy := opcodeByte_ranges b
  · decide
  · simp [instrLength_lut hlow (by omega), hlow, hhigh]
  · rw [instrLength_copy hcopy]; omega

theorem instrLength_eq_two_iff (b : Byte) : instrLength b = 2 ↔ b = 0x00#8 ∨ 0x3C ≤ b.toNat := by
  obtain rfl | ⟨hlow, hhigh⟩ | hcopy := opcodeByte_ranges b
  · decide
  · have hne : b ≠ 0x00#8 := by rintro rfl; simp at hlow
    simpa [instrLength_lut hlow (by omega), hne] using hhigh
  · simp [instrLength_copy hcopy, hcopy]

theorem instrLength_one_or_two (b : Byte) : instrLength b = 1 ∨ instrLength b = 2 := by
  rw [instrLength_eq_one_iff, instrLength_eq_two_iff]
  have := opcodeByte_ranges b
  tauto

/-! ## What the decoder makes of two bytes -/

/-- Whatever the decoder reads is an instruction some encoding stands for (spec R120). -/
theorem decodeOp_wellFormed (b n : Byte) : (decodeOp b n).wellFormed = true := by
  obtain rfl | ⟨hlow, hhigh⟩ | hcopy := opcodeByte_ranges b
  · rfl
  · rw [decodeOp_lut hlow hhigh]
    simpa [Instr.wellFormed] using Nat.one_le_iff_ne_zero.1 hlow
  · rw [decodeOp_copy hcopy, wellFormed_copy_iff, copyOffsetField_toNat hcopy, copyLengthField_toNat]
    omega

@[simp] theorem opcodeByte_decodeOp (b n : Byte) : (decodeOp b n).opcodeByte = b := by
  obtain rfl | ⟨hlow, hhigh⟩ | hcopy := opcodeByte_ranges b
  · rfl
  · rw [decodeOp_lut hlow hhigh]
    simp [Instr.opcodeByte]
  · rw [decodeOp_copy hcopy, opcodeByte_copyFields hcopy]

theorem nextByte_decodeOp {b : Byte} (hlen : instrLength b = 2) (n : Byte) : (decodeOp b n).nextByte = n := by
  obtain rfl | hcopy := (instrLength_eq_two_iff b).1 hlen
  · rfl
  · rw [decodeOp_copy hcopy, nextByte_copyFields hcopy]

/-- A 1-byte instruction does not depend on the byte behind it (spec R114). -/
theorem decodeOp_congr_of_length_one {b : Byte} (hlen : instrLength b = 1) (n n' : Byte) :
    decodeOp b n = decodeOp b n' := by
  obtain ⟨hlow, hhigh⟩ := (instrLength_eq_one_iff b).1 hlen
  rw [decodeOp_lut hlow hhigh, decodeOp_lut hlow hhigh]

/-- The decoder undoes the two bytes of the encoder (spec R115, R123). -/
theorem decodeOp_encodedBytes {i : Instr} (hwf : i.wellFormed = true) : decodeOp i.opcodeByte i.nextByte = i := by
  cases i with
  | lit v => rfl
  | lut i =>
    have hi : i.val ≠ 0 := by simpa [Instr.wellFormed] using hwf
    have h60 := i.isLt
    have hb : (Instr.lut i).opcodeByte.toNat = i.val := by rw [Instr.opcodeByte, BitVec.toNat_ofNat]; omega
    rw [decodeOp_lut (by omega) (by omega)]
    exact congrArg Instr.lut (Fin.ext hb)
  | copy offset length =>
    obtain ⟨hoffset, hlow, hhigh⟩ := (wellFormed_copy_iff offset length).1 hwf
    have hb : (Instr.copy offset length).opcodeByte.toNat = 0x3C + offset.toNat / 16 := by
      rw [opcodeByte_copy, BitVec.toNat_ofNat]; omega
    have hn : (Instr.copy offset length).nextByte.toNat = (length.toNat - 2) * 16 + offset.toNat % 16 := by
      rw [nextByte_copy offset hlow hhigh, BitVec.toNat_ofNat]; omega
    have hcopy : 0x3C ≤ (Instr.copy offset length).opcodeByte.toNat := by omega
    have hO : copyOffsetField (Instr.copy offset length).opcodeByte (Instr.copy offset length).nextByte = offset := by
      apply BitVec.eq_of_toNat_eq
      rw [copyOffsetField_toNat hcopy]; omega
    have hL : copyLengthField (Instr.copy offset length).nextByte = length := by
      apply BitVec.eq_of_toNat_eq
      rw [copyLengthField_toNat]; omega
    rw [decodeOp_copy hcopy, hO, hL]

/-! ## The decoder and the encoder on lists -/

theorem decode_of_length_one {b : Byte} (hlen : instrLength b = 1) (n : Byte) (rest : List Byte) :
    decode (b :: rest) = .ok (decodeOp b n, rest) := by
  rw [decodeOp_congr_of_length_one hlen n 0#8]
  exact if_pos hlen

theorem decode_of_length_two {b : Byte} (hlen : instrLength b = 2) (n : Byte) (rest : List Byte) :
    decode (b :: n :: rest) = .ok (decodeOp b n, rest) := by
  simp [decode, hlen]

theorem decode_truncated {b : Byte} (hlen : instrLength b = 2) : decode [b] = .error (.truncated b) := by
  simp [decode, hlen]

theorem encode_of_length_one {i : Instr} (hwf : i.wellFormed = true) (hlen : instrLength i.opcodeByte = 1) :
    encode i = [i.opcodeByte] := by
  cases i with
  | lit v => cases hlen
  | lut i => rfl
  | copy offset length =>
    have h := Laws.LengthByOpcode.copy offset length hwf
    rw [hlen] at h
    cases h

theorem encode_of_length_two {i : Instr} (hwf : i.wellFormed = true) (hlen : instrLength i.opcodeByte = 2) :
    encode i = [i.opcodeByte, i.nextByte] := by
  cases i with
  | lit v => rfl
  | lut i =>
    have h := Laws.LengthByOpcode.lut i hwf
    rw [hlen] at h
    cases h
  | copy offset length => rfl

/-! ## The statements -/

/-- Settles O1: the opcode byte fixes the length in the encoder as in the decoder, and the decoder undoes the bytes
(`decodeOp_encodedBytes`). -/
theorem decodeOfEncodeIsTheInstruction : Obligations.DecodeOfEncodeIsTheInstruction := by
  intro i rest hwf
  obtain hlen | hlen := instrLength_one_or_two i.opcodeByte
  · rw [encode_of_length_one hwf hlen, List.singleton_append, decode_of_length_one hlen i.nextByte,
      decodeOp_encodedBytes hwf]
  · rw [encode_of_length_two hwf hlen, List.cons_append, List.singleton_append, decode_of_length_two hlen,
      decodeOp_encodedBytes hwf]

/-- Settles O2: the bytes the decoder has used are those of the instruction it answers (`opcodeByte_decodeOp`,
`nextByte_decodeOp`). -/
theorem encodeOfDecodeIsTheBytes : Obligations.EncodeOfDecodeIsTheBytes := by
  intro bytes rest i hdecode
  cases bytes with
  | nil => cases hdecode
  | cons b tail =>
    obtain hlen | hlen := instrLength_one_or_two b
    · rw [decode_of_length_one hlen 0#8] at hdecode
      cases hdecode
      have hwf := decodeOp_wellFormed b 0#8
      rw [encode_of_length_one hwf (by rwa [opcodeByte_decodeOp]), opcodeByte_decodeOp]
      exact ⟨hwf, rfl⟩
    · cases tail with
      | nil => rw [decode_truncated hlen] at hdecode; cases hdecode
      | cons n tail =>
        rw [decode_of_length_two hlen] at hdecode
        cases hdecode
        have hwf := decodeOp_wellFormed b n
        rw [encode_of_length_two hwf (by rwa [opcodeByte_decodeOp]), opcodeByte_decodeOp, nextByte_decodeOp hlen]
        exact ⟨hwf, rfl⟩

/-- Settles O3: of the bytes there are, only a lone opcode byte of a 2-byte instruction is refused. -/
theorem decoderRejectsOnlyMissingBytes : Obligations.DecoderRejectsOnlyMissingBytes := by
  intro bytes e
  constructor
  · intro hdecode
    cases bytes with
    | nil => cases hdecode; exact .inl ⟨rfl, rfl⟩
    | cons b tail =>
      obtain hlen | hlen := instrLength_one_or_two b
      · rw [decode_of_length_one hlen 0#8] at hdecode; cases hdecode
      · cases tail with
        | nil =>
          rw [decode_truncated hlen] at hdecode
          cases hdecode
          exact .inr ⟨b, rfl, (instrLength_eq_two_iff b).1 hlen, rfl⟩
        | cons n tail => rw [decode_of_length_two hlen] at hdecode; cases hdecode
  · rintro (⟨rfl, rfl⟩ | ⟨b, rfl, hb, rfl⟩)
    · rfl
    · exact decode_truncated ((instrLength_eq_two_iff b).2 hb)

/-- Settles O6: four closed words. -/
theorem specExampleWordsDecode : Obligations.SpecExampleWordsDecode := by
  unfold Obligations.SpecExampleWordsDecode
  decide

end Sys2Proof
end

section
/-! PROOF. One loop step: what the fetch answers, what an instruction and a loop step can do, and that both always
answer a next state (spec R97, R180 to R187, R190, R275). -/

namespace Sys2Proof.Machine

/-! ## The fetch (spec R184) -/

@[simp] theorem opcodeByte_fetchInstr (s : State) : (fetchInstr s).opcodeByte = fetchOpcode s :=
  opcodeByte_decodeOp _ _

theorem fetchInstr_wellFormed (s : State) : (fetchInstr s).wellFormed = true := decodeOp_wellFormed _ _

theorem decode_pair {b n : Byte} {i : Instr} {rest : List Byte} (h : decode [b, n] = .ok (i, rest)) :
    i = decodeOp b n := by
  obtain hlen | hlen := instrLength_one_or_two b
  · rw [decode_of_length_one hlen n] at h; cases h; rfl
  · rw [decode_of_length_two hlen] at h; cases h; rfl

/-! ## What an instruction can do -/

theorem exec_lit (v : Byte) (s : State) : exec (.lit v) s = execLit v s := rfl

theorem exec_lut (i : Fin 60) (s : State) : exec (.lut i) s = execLut i s := rfl

theorem exec_copy (offset : BitVec 12) (length : BitVec 5) (s : State) :
    exec (.copy offset length) s = execCopy offset length s := rfl

/-- A 16-bit `DECL_LEN` not yet reached leaves room in the output buffer, so a literal escape with its operand commits
(spec R12, R210). -/
theorem execLit_of_hasNextByte (v : Byte) {s : State} (hshort : s.outLen.toNat < s.declLen.toNat)
    (hnext : s.cursor.toNat + 1 < s.streamLen.toNat) :
    execLit v s = .next (committedState s (.literal v) 1 2 (.lit v)) := by
  have hcap := outCap_ge
  rw [execLit_eq, if_pos hnext, if_pos (by omega)]

/-- No instruction stops the machine while the declared length is not reached (spec R275). -/
theorem exec_answers {i : Instr} {s : State} (hwf : i.wellFormed = true)
    (hshort : s.outLen.toNat < s.declLen.toNat) : ∃ t, exec i s = .next t := by
  cases i with
  | lit v =>
    by_cases hnext : s.cursor.toNat + 1 < s.streamLen.toNat
    · exact ⟨_, execLit_of_hasNextByte v hshort hnext⟩
    · exact ⟨_, execLit_of_noNextByte v (by omega)⟩
  | lut i => exact ⟨_, execLut_of_outLen_lt i hshort⟩
  | copy offset length =>
    obtain ⟨-, -, hhigh⟩ := (wellFormed_copy_iff offset length).1 hwf
    by_cases hnext : s.cursor.toNat + 1 < s.streamLen.toNat
    · by_cases hspan : length.toNat ≤ offset.toNat ∧ offset.toNat ≤ s.outLen.toNat
      · exact ⟨_, execCopy_of_valid hhigh hshort hnext hspan⟩
      · exact ⟨_, execCopy_of_invalid hnext hspan⟩
    · exact ⟨_, execCopy_of_noNextByte offset length (by omega)⟩

/-- What a well-formed instruction can do at a state of the loop: commit 1 to 17 bytes that lie, with its own bytes,
within their bounds, or halt on one of the two instruction errors (spec R97, R185, R187). -/
inductive InstrMove (i : Instr) (s : State) : State → Prop where
  | committed (src : AppendSource) (k : Nat) (hpos : 1 ≤ k) (hle : k ≤ 17)
      (htrim : s.ctrl.trim = true → s.outLen.toNat + k ≤ s.declLen.toNat)
      (hcursor : s.cursor.toNat + instrLength i.opcodeByte ≤ s.streamLen.toNat) :
      InstrMove i s (committedState s src k (instrLength i.opcodeByte) i)
  | halted (e : Err) (f : FaultInfo) (he : e = .truncatedInstruction ∨ e = .invalidBackReference) :
      InstrMove i s (raiseError e (some f) s)

theorem instrMove_of_exec {i : Instr} {s t : State} (hwf : i.wellFormed = true)
    (hshort : s.outLen.toNat < s.declLen.toNat) (hmore : s.cursor.toNat < s.streamLen.toNat)
    (h : exec i s = .next t) : InstrMove i s t := by
  obtain ⟨src, k, rfl, -, -, hle, hpos, htrim, hnext⟩ | ⟨e, f, rfl, he⟩ | hill := exec_next_cases h
  · refine .committed src k (hpos hwf hshort) (hle hwf) (fun h => htrim h hshort) ?_
    obtain hlen | hlen := instrLength_one_or_two i.opcodeByte
    · omega
    · have := hnext hlen; omega
  · exact .halted e f he
  · rw [hwf] at hill; cases hill

/-- The committing state in the words of the statements, where the step has stayed within its bounds. -/
theorem committedBy_committedState {s : State} (src : AppendSource) {k : Nat} {i : Instr}
    (hshort : s.outLen.toNat < s.declLen.toNat) (hle : k ≤ 17)
    (hcursor : s.cursor.toNat + instrLength i.opcodeByte ≤ s.streamLen.toNat) :
    CommittedBy k (instrLength i.opcodeByte) s (committedState s src k (instrLength i.opcodeByte) i) :=
  (committedState_spec (by omega) (by omega) (by omega)).1

/-- A commit adds its bytes to `OUT_LEN` without wrapping (spec R48, R97). -/
theorem committedState_outLen_toNat {s : State} {src : AppendSource} {k adv : Nat} {i : Instr} (hk : k < 32)
    (ho : s.outLen.toNat < 65536) : (committedState s src k adv i).outLen.toNat = s.outLen.toNat + k := by
  simp only [committedState, commit_outLen, insnRecord_fragLen, BitVec.toNat_add, BitVec.toNat_setWidth,
    BitVec.toNat_ofNat]
  omega

/-! ## What a loop step can do -/

/-- The termination check that ends the decode with a given reason, the ones before it having failed (spec R181 to
R183). -/
def EndReason (s : State) : Term → Prop
  | .lengthReached => s.declLen.toNat ≤ s.outLen.toNat
  | .inputExhausted => s.outLen.toNat < s.declLen.toNat ∧ s.streamLen.toNat ≤ s.cursor.toNat
  | .limitReached =>
      s.outLen.toNat < s.declLen.toNat ∧ s.cursor.toNat < s.streamLen.toNat ∧ limitReached s = true
  | _ => False

/-- What one loop step can do: terminate by a check that holds, or run the instruction at `CURSOR` (spec R180). -/
inductive LoopMove (s : State) : State → Prop where
  | terminated (r : Term) (hr : EndReason s r) : LoopMove s (terminate r s)
  | ran (t : State) (hreach : ReachesInstruction s) (hrun : InstrMove (fetchInstr s) s t) : LoopMove s t

/-- A loop step always answers a next state, and by one of the moves it has (spec R180, R275). -/
theorem loopStep_answers (s : State) : ∃ t, loopStep s = .next t ∧ LoopMove s t := by
  obtain ⟨hlong, hstep⟩ | ⟨hshort, hend, hstep⟩ | ⟨hshort, hmore, hlimit, hstep⟩ | ⟨hreach, hstep⟩ :=
    loopStep_cases (s := s) rfl
  · exact ⟨_, hstep, .terminated .lengthReached hlong⟩
  · exact ⟨_, hstep, .terminated .inputExhausted ⟨hshort, hend⟩⟩
  · exact ⟨_, hstep, .terminated .limitReached ⟨hshort, hmore, hlimit⟩⟩
  · have ⟨hshort, hmore, _⟩ := hreach
    have hwf := fetchInstr_wellFormed s
    obtain ⟨t, hexec⟩ := exec_answers hwf hshort
    exact ⟨t, hstep.trans hexec, .ran t hreach (instrMove_of_exec hwf hshort hmore hexec)⟩

theorem loopMove_of_loopStep {s t : State} (h : loopStep s = .next t) : LoopMove s t := by
  obtain ⟨u, hu, hmove⟩ := loopStep_answers s
  cases hu.symm.trans h
  exact hmove

/-! ## The statements about the three instructions -/

/-- Settles O11: the third check of the loop step; a limit of 0 is reached by every count. -/
theorem instructionLimitTerminates : Obligations.InstructionLimitTerminates := by
  intro s hin hloop hshort hmore hen hmax
  have hreached : s.maxInsns.toNat ≤ s.insnCount.toNat := by
    obtain h | h := hmax
    · exact h
    · simp [h]
  have hlimit : limitReached s = true := by simp [limitReached, hen, hreached]
  exact ⟨_, (step_of_inLoop hin hloop).trans (loopStep_of_limitReached hshort hmore hlimit), terminate_spec _ s⟩

/-- Settles O14: with its operand in the stream `LIT` commits, and the multiplexer selects the operand. -/
theorem literalAppendsItsOperand : Obligations.LiteralAppendsItsOperand := by
  intro v s hshort hnext
  obtain ⟨hcommitted, hdata, htrace⟩ :=
    committedState_spec (s := s) (src := .literal v) (k := 1) (adv := 2) (i := .lit v) (by omega) (by omega) (by omega)
  exact ⟨_, (exec_lit v s).trans (execLit_of_hasNextByte v hshort hnext), hcommitted, hdata 0 Nat.zero_lt_one, htrace⟩

/-- Settles O16: `LUT` commits at every index, and the multiplexer selects the table's entry. -/
theorem lookupAppendsItsTableEntry : Obligations.LookupAppendsItsTableEntry := by
  intro i s hshort hmore
  obtain ⟨hcommitted, hdata, htrace⟩ :=
    committedState_spec (s := s) (src := .table i) (k := 1) (adv := 1) (i := .lut i) (by omega) (by omega) (by omega)
  exact ⟨_, (exec_lut i s).trans (execLut_of_outLen_lt i hshort), hcommitted, hdata 0 Nat.zero_lt_one, htrace⟩

/-- The sign bit of the 18-bit difference is the borrow: 17-bit `OUT_LEN` less a 12-bit offset is negative exactly when
the offset is larger (spec R238). -/
theorem msb_start_iff (outLen : BitVec 17) (offset : BitVec 12) :
    (outLen.setWidth 18 - offset.setWidth 18).msb = true ↔ outLen.toNat < offset.toNat := by
  have hout := outLen.isLt
  have hoff := offset.isLt
  rw [BitVec.msb_eq_decide, decide_eq_true_iff, BitVec.toNat_sub, BitVec.toNat_setWidth, BitVec.toNat_setWidth]
  omega

/-- Settles O21: `spanValid_iff`, the borrow of the datapath (`msb_start_iff`), and arithmetic on the three lengths. -/
theorem spanIsValidExactlyWhenLengthOffsetOutput : Obligations.SpanIsValidExactlyWhenLengthOffsetOutput := by
  intro s offset length
  have hvalid := spanValid_iff s offset length
  refine ⟨hvalid, ?datapath, fun h => ?source, fun hlow hsmall => ?tooShort⟩
  case datapath =>
    rw [Bool.eq_iff_iff, hvalid, spanValidDatapath, Bool.and_eq_true, decide_eq_true_iff, Bool.not_eq_true',
      ← Bool.not_eq_true, msb_start_iff, Nat.not_lt]
  case source =>
    have hcount := copyCount_le s length
    rw [copyStart_toNat h]
    have := hvalid.1 h
    omega
  case tooShort =>
    rw [← Bool.not_eq_true, hvalid]
    omega

/-- Settles O22: a commit appends at most 17 bytes to an output that is at least one byte short, with TRIM only what is
lacking, and a halt appends none. -/
theorem appendOvershootsAtMostSixteen : Obligations.AppendOvershootsAtMostSixteen := by
  intro i s t hwf hshort hexec
  obtain ⟨src, k, rfl, hk, -, hle, -, htrim, -⟩ | ⟨e, f, rfl, -⟩ | hill := exec_next_cases hexec
  · have hk17 := hle hwf
    rw [committedState_outLen_toNat hk (by omega)]
    exact ⟨by omega, fun h => htrim h hshort, by omega⟩
  · rw [raiseError_outLen]
    exact ⟨by omega, fun _ => by omega, le_refl _⟩
  · rw [hwf] at hill; cases hill

/-- Settles O23: the two moves of a well-formed instruction, in the words of the statements. -/
theorem instructionCommitsOrHaltsWithoutEffect : Obligations.InstructionCommitsOrHaltsWithoutEffect := by
  intro i s t hwf hshort hmore hexec
  cases instrMove_of_exec hwf hshort hmore hexec with
  | committed src k hpos hle htrim hcursor =>
    have hby := committedBy_committedState src hshort hle hcursor
    have ⟨_, hcur, _⟩ := hby
    exact .inl ⟨k, hpos, hle, hby, hcur ▸ hcursor⟩
  | halted e f he => exact .inr ⟨e, f, he, raiseError_spec e f s⟩

/-! ## The statements about the loop step -/

/-- Settles O7: the decoder on the list of the two fetched bytes is the decoder of the fetch. -/
theorem stepRunsTheDecodedInstruction : Obligations.StepRunsTheDecodedInstruction := by
  intro s i rest hin hloop hreach hdecode _
  refine ⟨?_, rfl, fetchNext_of_hasNextByte⟩
  rw [step_of_inLoop hin hloop, loopStep_of_reachesInstruction hreach, decode_pair hdecode, fetchInstr]

/-- Settles O24: the step is the loop step, which always answers. -/
theorem loopNeverStops : Obligations.LoopNeverStops := by
  intro s hin hloop
  obtain ⟨t, ht, -⟩ := loopStep_answers s
  exact ⟨t, (step_of_inLoop hin hloop).trans ht⟩

@[simp] theorem insnRecord_op (s : State) (k : Nat) (i : Instr) : (insnRecord s k i).op = i.opcodeByte := by
  cases i <;> rfl

/-- Settles O27: a commit presents the record made of the state before it, and each other move of the loop ends the
decode and presents the terminal record. -/
theorem traceRecordsChain : Obligations.TraceRecordsChain := by
  intro s t hin hloop hstep
  rw [step_of_inLoop hin hloop] at hstep
  cases loopMove_of_loopStep hstep with
  | terminated r _ => exact .inr ⟨rfl, rfl⟩
  | ran t hreach hrun =>
    have ⟨hshort, _, _⟩ := hreach
    cases hrun with
    | halted e f _ => exact .inr ⟨rfl, rfl⟩
    | committed src k hpos hle _ hcursor =>
      obtain ⟨hout, hcur, -⟩ := committedBy_committedState src hshort hle hcursor
      have hlen := instrLength_one_or_two (fetchInstr s).opcodeByte
      refine .inl ⟨_, rfl, insnRecord_cursor .., ?_, ?_, insnRecord_fragStart .., ?_, hloop⟩
      · rw [hcur, insnRecord_cursor]; omega
      · rw [insnRecord_op, opcodeByte_fetchInstr, fetchOpcode]
      · rw [hout, insnRecord_fragStart, insnRecord_fragLen, BitVec.toNat_ofNat]; omega

end Sys2Proof.Machine
end

section
/-! PROOF. What a move does not look at: the trace port, the moves that wait on, and the stream beyond the bytes it
reads. A change of such a part is carried through the move to the state it answers (spec R80, R92, R104, R262). -/

namespace Sys2Proof.Machine

/-! ## The step at each kind of waiting move -/

theorem step_of_engine_waiting {s : State} {rest : List Input} (h : s.inputs = .engine :: rest) :
    step s = engineStep { s with inputs := rest } := by
  simp only [step, moveStep, h]

theorem step_of_host_waiting {s : State} {op : HostOp} {rest : List Input} (h : s.inputs = .host op :: rest) :
    step s = hostStep op { s with inputs := rest } := by
  simp only [step, moveStep, h]

theorem step_of_rst_waiting {s : State} {rest : List Input} (h : s.inputs = .rst :: rest) :
    step s = .next (resetStep { s with inputs := rest }) := by
  simp only [step, moveStep, h]

theorem engineStep_of_inLoop {s : State} (hloop : InLoop s) : engineStep s = loopStep s := by
  obtain ⟨hbusy, hpending⟩ := hloop
  obtain ⟨-, hp, -⟩ | ⟨-, hstep⟩ | ⟨hidle, -⟩ := engineStep_cases s
  · rw [hpending] at hp; cases hp
  · exact hstep
  · exact absurd hbusy hidle

theorem engineStep_of_not_busy {s : State} (h : s.status.state ≠ .busy) :
    engineStep s = .next { s with trace := none } := by
  obtain ⟨hbusy, -⟩ | ⟨⟨hbusy, -⟩, -⟩ | ⟨-, hstep⟩ := engineStep_cases s
  · exact absurd hbusy h
  · exact absurd hbusy h
  · exact hstep

/-- A move of the engine never stops the machine (spec R275). -/
theorem engineStep_answers (s : State) : ∃ t, engineStep s = .next t := by
  obtain ⟨-, -, hstep⟩ | ⟨-, hstep⟩ | ⟨-, hstep⟩ := engineStep_cases s
  · exact ⟨_, hstep⟩
  · obtain ⟨t, ht, -⟩ := loopStep_answers s
    exact ⟨t, hstep.trans ht⟩
  · exact ⟨_, hstep⟩

theorem headerParse_of_long {s : State} (h : 8 ≤ s.streamLen.toNat) :
    headerParse s = headerFinish (loadedHeader s) := if_neg (Nat.not_lt.2 h)

/-! ## Carried changes -/

/-- An outcome with its next state changed. -/
def mapNext (g : State → State) : Host.Outcome State Fault Refusal → Host.Outcome State Fault Refusal
  | .next t => .next (g t)
  | .fault r => .fault r
  | .refused r => .refused r

@[simp] theorem mapNext_next (g : State → State) (t : State) : mapNext g (.next t) = .next (g t) := rfl

/-- A change `g` of a state that leaves the registers a loop step decides by, and that comes through the three ways a
loop step ends as the change `g'`. -/
structure Carries (g g' : State → State) : Prop where
  ctrl : ∀ s, (g s).ctrl = s.ctrl := by intros; rfl
  streamLen : ∀ s, (g s).streamLen = s.streamLen := by intros; rfl
  maxInsns : ∀ s, (g s).maxInsns = s.maxInsns := by intros; rfl
  declLen : ∀ s, (g s).declLen = s.declLen := by intros; rfl
  cursor : ∀ s, (g s).cursor = s.cursor := by intros; rfl
  outLen : ∀ s, (g s).outLen = s.outLen := by intros; rfl
  insnCount : ∀ s, (g s).insnCount = s.insnCount := by intros; rfl
  terminate : ∀ r s, terminate r (g s) = g' (terminate r s) := by intros; rfl
  raiseError : ∀ e f s, raiseError e f (g s) = g' (raiseError e f s) := by intros; rfl
  committedState : ∀ s src k adv i, committedState (g s) src k adv i = g' (committedState s src k adv i)

section
variable {g g' : State → State}

/-- What an instruction does, it does to the changed state as well. -/
theorem Carries.exec (hg : Carries g g') (i : Instr) (s : State) : exec i (g s) = mapNext g' (exec i s) := by
  cases i with
  | lit v =>
    rw [exec_lit, exec_lit, execLit_eq, execLit_eq, hg.cursor, hg.streamLen, hg.outLen, hg.committedState,
      hg.raiseError]
    split_ifs <;> rfl
  | lut i =>
    rw [exec_lut, exec_lut, execLut_eq, execLut_eq, hg.outLen, hg.committedState]
    split_ifs <;> rfl
  | copy offset length =>
    have hstart : copyStart (g s) offset = copyStart s offset := by rw [copyStart, copyStart, hg.outLen]
    have hcount : copyCount (g s) length = copyCount s length := by
      rw [copyCount, copyCount, hg.ctrl, hg.declLen, hg.outLen]
    rw [exec_copy, exec_copy, execCopy_eq, execCopy_eq, hstart, hcount, hg.cursor, hg.streamLen, hg.outLen,
      hg.committedState, hg.raiseError, hg.raiseError]
    split_ifs <;> rfl

theorem Carries.limitReached (hg : Carries g g') (s : State) : limitReached (g s) = limitReached s := by
  rw [Machine.limitReached, Machine.limitReached, hg.ctrl, hg.maxInsns, hg.insnCount]

/-- A loop step carries the change through when the fetch does not see it. -/
theorem Carries.loopStep (hg : Carries g g') {s : State}
    (hfetch : ReachesInstruction s → fetchInstr (g s) = fetchInstr s) :
    loopStep (g s) = mapNext g' (loopStep s) := by
  obtain ⟨hlong, hstep⟩ | ⟨hshort, hend, hstep⟩ | ⟨hshort, hmore, hlimit, hstep⟩ | ⟨hreach, hstep⟩ :=
    loopStep_cases (s := s) rfl
  · rw [hstep, loopStep_of_lengthReached (by rwa [hg.declLen, hg.outLen]), hg.terminate, mapNext_next]
  · rw [hstep, loopStep_of_inputExhausted (by rwa [hg.declLen, hg.outLen]) (by rwa [hg.streamLen, hg.cursor]),
      hg.terminate, mapNext_next]
  · rw [hstep, loopStep_of_limitReached (by rwa [hg.declLen, hg.outLen]) (by rwa [hg.streamLen, hg.cursor])
      (by rwa [hg.limitReached]), hg.terminate, mapNext_next]
  · have hreach' : ReachesInstruction (g s) := by
      rw [ReachesInstruction, hg.declLen, hg.outLen, hg.streamLen, hg.cursor, hg.limitReached]
      exact hreach
    rw [hstep, loopStep_of_reachesInstruction hreach', hfetch hreach, hg.exec]

/-- The strict checks and the entry point carry a change through that leaves the warnings. -/
theorem Carries.headerFinish (hg : Carries g g) (hstatus : ∀ s, (g s).status = s.status)
    (hentry : ∀ s, { g s with cursor := 8#32 } = g { s with cursor := 8#32 }) (s : State) :
    headerFinish (g s) = g (headerFinish s) := by
  have hmarker : ((g s).ctrl.strict && (g s).status.warnMarker) = (s.ctrl.strict && s.status.warnMarker) := by
    rw [hg.ctrl, hstatus]
  have hresv : ((g s).ctrl.strict && (g s).status.warnResv) = (s.ctrl.strict && s.status.warnResv) := by
    rw [hg.ctrl, hstatus]
  unfold Machine.headerFinish
  rw [hmarker, hresv]
  split_ifs
  · exact hg.raiseError ..
  · exact hg.raiseError ..
  · exact hentry s

/-- So does the whole parse, when the load of the eight bytes does. -/
theorem Carries.headerParse (hg : Carries g g) (hstatus : ∀ s, (g s).status = s.status)
    (hentry : ∀ s, { g s with cursor := 8#32 } = g { s with cursor := 8#32 })
    (hpending : ∀ s, { g s with hdrPending := false } = g { s with hdrPending := false }) {s : State}
    (hload : loadedHeader (g s) = g (loadedHeader s)) : headerParse (g s) = g (headerParse s) := by
  by_cases hshort : s.streamLen.toNat < 8
  · rw [headerParse_of_short hshort, headerParse_of_short (by rwa [hg.streamLen])]
    exact (congrArg _ (hpending s)).trans (hg.raiseError ..)
  · have hlong : 8 ≤ s.streamLen.toNat := Nat.le_of_not_lt hshort
    have hlong' : 8 ≤ (g s).streamLen.toNat := by rwa [hg.streamLen]
    rw [headerParse_of_long hlong, headerParse_of_long hlong', hload, hg.headerFinish hstatus hentry]

end

/-! ## The changes that are carried

The registers and the two halts hold by unfolding; a commit first asks for its source and its instruction. -/

theorem carries_stream (m : Memory) : Carries (fun s => { s with stream := m }) (fun s => { s with stream := m }) where
  committedState _ src _ _ i := by cases src <;> cases i <;> rfl

theorem carries_inputs (rest : List Input) :
    Carries (fun s => { s with inputs := rest }) (fun s => { s with inputs := rest }) where
  committedState _ src _ _ i := by cases src <;> cases i <;> rfl

/-- A loop step puts a record of its own on the trace port, so that nothing of the old one comes through (spec R262). -/
theorem carries_trace (r : Option TraceRecord) : Carries (fun s => { s with trace := r }) id where
  committedState _ src _ _ i := by cases src <;> cases i <;> rfl

@[simp] theorem mapNext_id (o : Host.Outcome State Fault Refusal) : mapNext id o = o := by cases o <;> rfl

/-! ## The trace port -/

theorem engineStep_ignores_trace (s : State) (r : Option TraceRecord) :
    engineStep { s with trace := r } = engineStep s := by
  obtain ⟨hbusy, hpending, hstep⟩ | ⟨hloop, hstep⟩ | ⟨hidle, hstep⟩ := engineStep_cases s
  · rw [hstep, engineStep_of_hdrPending (s := { s with trace := r }) hbusy hpending]
    rfl
  · rw [hstep, engineStep_of_inLoop (s := { s with trace := r }) hloop]
    exact ((carries_trace r).loopStep fun _ => rfl).trans (mapNext_id _)
  · rw [hstep, engineStep_of_not_busy (s := { s with trace := r }) hidle]

/-- Settles O26: the engine's move and the host's silence the port or put their own record there, and the reset input
silences it. -/
theorem tracePortDoesNotInfluenceTheStep : Obligations.TracePortDoesNotInfluenceTheStep := by
  intro s r
  obtain ⟨hin, hstep⟩ | ⟨rest, hin, hstep⟩ | ⟨op, rest, hin, hstep⟩ | ⟨rest, hin, hstep⟩ := step_cases s
  · rw [hstep, step_of_no_inputs (s := { s with trace := r }) hin, engineStep_ignores_trace]
  · rw [hstep, step_of_engine_waiting (s := { s with trace := r }) hin]
    exact engineStep_ignores_trace { s with inputs := rest } r
  · rw [hstep, step_of_host_waiting (s := { s with trace := r }) hin]
    rfl
  · rw [hstep, step_of_rst_waiting (s := { s with trace := r }) hin]
    rfl

/-! ## The moves that wait on -/

theorem headerParse_inputs (s : State) (rest : List Input) :
    headerParse { s with inputs := rest } = { headerParse s with inputs := rest } :=
  (carries_inputs rest).headerParse (fun _ => rfl) (fun _ => rfl) (fun _ => rfl) rfl

theorem loopStep_inputs (s : State) (rest : List Input) :
    loopStep { s with inputs := rest } = mapNext (fun t => { t with inputs := rest }) (loopStep s) :=
  (carries_inputs rest).loopStep fun _ => rfl

/-- The engine's move does not look at the moves that wait behind it. -/
theorem engineStep_inputs (s : State) (rest : List Input) :
    engineStep { s with inputs := rest } = mapNext (fun t => { t with inputs := rest }) (engineStep s) := by
  obtain ⟨hbusy, hpending, hstep⟩ | ⟨hloop, hstep⟩ | ⟨hidle, hstep⟩ := engineStep_cases s
  · rw [hstep, engineStep_of_hdrPending (s := { s with inputs := rest }) hbusy hpending, headerParse_inputs,
      mapNext_next]
  · rw [hstep, engineStep_of_inLoop (s := { s with inputs := rest }) hloop, loopStep_inputs]
  · rw [hstep, engineStep_of_not_busy (s := { s with inputs := rest }) hidle, mapNext_next]

/-- An access of the host neither takes nor adds a waiting move. -/
theorem hostStep_keeps_inputs {op : HostOp} {s t : State} (h : hostStep op s = .next t) : t.inputs = s.inputs := by
  obtain ⟨r, rfl⟩ | ⟨a, v, -, rfl⟩ | ⟨offset, value, -, -, rfl⟩ | ⟨a, v, -, -, -, rfl⟩ := hostStep_next_cases h
  · rfl
  · rfl
  · obtain ⟨-, hw⟩ | ⟨-, -, -, hw⟩ | ⟨-, -, -, hw⟩ | ⟨-, -, hw⟩ | ⟨-, -, hw⟩ | ⟨-, -, -, -, hw⟩ :=
      portWriteWord_cases offset value { s with trace := none }
    all_goals rw [hw]
    all_goals rfl
  · rfl

/-- Settles O13: each kind of head has its step, and none of them touches what waits behind it. -/
theorem waitingMovesTakeTheirTurn : Obligations.WaitingMovesTakeTheirTurn := by
  intro s m rest hin
  have hengine : m = .engine → ∃ t, step { s with inputs := [] } = .next t ∧
      step s = .next { t with inputs := rest } := by
    rintro rfl
    obtain ⟨t, ht⟩ := engineStep_answers { s with inputs := [] }
    refine ⟨t, (step_of_no_inputs rfl).trans ht, ?_⟩
    have hcarried := engineStep_inputs { s with inputs := [] } rest
    rw [ht, mapNext_next] at hcarried
    rw [step_of_engine_waiting hin]
    exact hcarried
  have hhost : ∀ op, m = .host op → step s = hostStep op { s with inputs := rest } := by
    rintro op rfl
    exact step_of_host_waiting hin
  have hrst : m = .rst → step s = .next (resetStep { s with inputs := rest }) := by
    rintro rfl
    exact step_of_rst_waiting hin
  refine ⟨fun t ht => ?rest, hengine, hhost, hrst⟩
  cases m with
  | engine =>
    obtain ⟨u, -, hu⟩ := hengine rfl
    cases hu.symm.trans ht
    rfl
  | host op => exact hostStep_keeps_inputs ((hhost op rfl).symm.trans ht)
  | rst =>
    cases (hrst rfl).symm.trans ht
    rfl

/-- Settles O12: an engine that is not BUSY only silences its trace port. -/
theorem quiescentEngineChangesNothing : Obligations.QuiescentEngineChangesNothing := by
  intro s hin hidle
  refine ⟨{ s with trace := none }, ?_, rfl, ?_, rfl, rfl⟩
  · rw [step_of_no_inputs hin, engineStep_of_not_busy hidle]
  · exact ⟨⟨rfl, rfl, rfl⟩, ⟨rfl, rfl, rfl, rfl, rfl, rfl, rfl, rfl⟩, rfl, rfl, rfl, rfl, rfl, rfl⟩

/-! ## The stream -/

theorem streamByte_of_lookup_eq {s : State} {m : Memory} {a : Nat} (h : Memory.lookup m a = Memory.lookup s.stream a) :
    streamByte { s with stream := m } a = streamByte s a := by
  rw [streamByte, streamByte, h]

/-- The fetch sees the bytes of its instruction only: where the opcode byte says one byte, the next one does not matter
(spec R84, R114). -/
theorem fetchInstr_of_stream_agree {s : State} {m : Memory} (hmore : s.cursor.toNat < s.streamLen.toNat)
    (h : ∀ a, s.cursor.toNat ≤ a → a < s.cursor.toNat + instrLength (fetchOpcode s) → a < s.streamLen.toNat →
      Memory.lookup m a = Memory.lookup s.stream a) :
    fetchInstr { s with stream := m } = fetchInstr s := by
  have hlen := instrLength_one_or_two (fetchOpcode s)
  have hop : fetchOpcode { s with stream := m } = fetchOpcode s :=
    streamByte_of_lookup_eq (h s.cursor.toNat (le_refl _) (by omega) hmore)
  rw [fetchInstr, fetchInstr, hop]
  obtain hone | htwo := hlen
  · exact decodeOp_congr_of_length_one hone _ _
  · congr 1
    by_cases hnext : s.cursor.toNat + 1 < s.streamLen.toNat
    · rw [fetchNext_of_hasNextByte hnext, fetchNext_of_hasNextByte (s := { s with stream := m }) hnext]
      exact streamByte_of_lookup_eq (h (s.cursor.toNat + 1) (by omega) (by omega) hnext)
    · have hlast : hasNextByte s = false := by rw [← Bool.not_eq_true, hasNextByte_iff]; exact hnext
      have hlast' : hasNextByte { s with stream := m } = false := hlast
      rw [fetchNext, fetchNext, hlast, hlast']
      rfl

theorem LoopMove.stream {s t : State} (h : LoopMove s t) : t.stream = s.stream := by
  cases h with
  | terminated r _ => rfl
  | ran t _ hrun => cases hrun <;> rfl

/-- Settles O25: another stream is carried through the loop step, because the fetch does not see it. -/
theorem loopStepReadsOnlyItsInstruction : Obligations.LoopStepReadsOnlyItsInstruction := by
  intro s m hagree t hstep
  refine ⟨(loopMove_of_loopStep hstep).stream, ?_⟩
  have hfetch (hreach : ReachesInstruction s) : fetchInstr { s with stream := m } = fetchInstr s := by
    have ⟨_, hmore, _⟩ := hreach
    exact fetchInstr_of_stream_agree hmore (hagree hreach)
  have hcarried := (carries_stream m).loopStep hfetch
  rw [hstep, mapNext_next] at hcarried
  exact hcarried

/-- Settles O33: the parse carries another stream through that holds the same eight header bytes, and no part of it
writes O. -/
theorem headerParseReadsOnlyTheHeader : Obligations.HeaderParseReadsOnlyTheHeader := by
  intro s m hagree
  have hbyte : ∀ a < 8, streamByte { s with stream := m } a = streamByte s a :=
    fun a ha => streamByte_of_lookup_eq (hagree a ha)
  refine ⟨?out, (carries_stream m).headerParse (fun _ => rfl) (fun _ => rfl) (fun _ => rfl) ?load⟩
  case out =>
    obtain ⟨-, hparse⟩ | ⟨-, l, rfl, ⟨-, -, hparse⟩ | ⟨-, -, -, hparse⟩ | ⟨-, hparse⟩⟩ := headerParse_cases s
    all_goals rw [hparse]; rfl
  case load =>
    rw [loadedHeader, hbyte 0 (by omega), hbyte 1 (by omega), hbyte 2 (by omega), hbyte 3 (by omega),
      hbyte 4 (by omega), hbyte 5 (by omega), hbyte 6 (by omega), hbyte 7 (by omega)]
    rfl

end Sys2Proof.Machine
end

section
/-! PROOF. The host's moves: the register port, the window on the output buffer, the writes of the stream, START and the
reset input (spec R32 to R39, R54, R95, R106, R150, R300). -/

namespace Sys2Proof.Machine

/-! ## One equation for each access -/

theorem portAccessOk_iff (offset width : Nat) : portAccessOk offset width = true ↔ width = 4 ∧ offset % 4 = 0 := by
  simp [portAccessOk]

/-- The step of a read the register port has. -/
theorem step_of_portRead {s : State} {offset : Nat} {rest : List Input}
    (hin : s.inputs = .host (.portRead offset 4) :: rest) (halign : offset % 4 = 0) :
    step s = .next { s with inputs := rest, trace := none, reply := some (.word (portReadWord s offset)) } := by
  rw [step_of_host_waiting hin]
  exact if_pos ((portAccessOk_iff offset 4).2 ⟨rfl, halign⟩)

/-- The step of a write the register port has. -/
theorem step_of_portWrite {s : State} {offset : Nat} {w : Word} {rest : List Input}
    (hin : s.inputs = .host (.portWrite offset 4 w) :: rest) (halign : offset % 4 = 0) :
    step s = .next (portWriteWord offset w { s with inputs := rest, trace := none }) := by
  rw [step_of_host_waiting hin]
  exact if_pos ((portAccessOk_iff offset 4).2 ⟨rfl, halign⟩)

/-- An access of another width or at a misaligned offset is refused (spec R33). -/
theorem step_refuses_portAccess {s : State} {offset width : Nat} {w : Word} {rest : List Input}
    (hin : s.inputs = .host (.portRead offset width) :: rest ∨ s.inputs = .host (.portWrite offset width w) :: rest)
    (hbad : ¬(width = 4 ∧ offset % 4 = 0)) : step s = .refused .portAccess := by
  obtain hin | hin := hin
  all_goals
    rw [step_of_host_waiting hin]
    exact if_neg (mt (portAccessOk_iff offset width).1 hbad)

theorem portWriteWord_of_busy {s : State} (offset : Nat) (w : Word) (hbusy : s.status.state = .busy) :
    portWriteWord offset w s = s :=
  if_pos ((busy_iff s).2 hbusy)

/-- While the engine is not BUSY, the offset alone says what a write does (spec R32, R33). -/
theorem portWriteWord_of_not_busy {s : State} (offset : Nat) (w : Word) (hidle : s.status.state ≠ .busy) :
    portWriteWord offset w s =
      if offset = 0x00 then writeCtrl w s
      else if offset = 0x08 then writeStreamLen w s
      else if offset = 0x0C then writeMaxInsns w s
      else s :=
  if_neg (mt (busy_iff s).1 hidle)

theorem portWriteWord_of_other_offset (s : State) {offset : Nat} (w : Word) (h0 : offset ≠ 0x00) (h8 : offset ≠ 0x08)
    (hC : offset ≠ 0x0C) : portWriteWord offset w s = s := by
  by_cases hbusy : s.status.state = .busy
  · exact portWriteWord_of_busy offset w hbusy
  · rw [portWriteWord_of_not_busy offset w hbusy, if_neg h0, if_neg h8, if_neg hC]

/-- The step of a START that the engine takes (spec R37, R150). -/
theorem step_of_start {s : State} {w : Word} {rest : List Input}
    (hin : s.inputs = .host (.portWrite 0x00 4 w) :: rest) (hidle : s.status.state ≠ .busy)
    (hstart : w.getLsbD 0 = true) : step s = .next (startCommand w { s with inputs := rest }) := by
  have hwrite := portWriteWord_of_not_busy (s := { s with inputs := rest, trace := none }) 0x00 w hidle
  rw [step_of_portWrite hin rfl, hwrite, if_pos rfl, writeCtrl, if_pos hstart]
  rfl

theorem portReadWord_of_unmapped (s : State) {offset : Nat} (h : 0x2C ≤ offset) : portReadWord s offset = 0#32 := by
  rw [portReadWord]
  iterate 11 rw [if_neg (by omega)]

/-! ## The words the host reads, as numbers (spec R35, R40, R50) -/

/-- Fields put side by side count by the widths to their right. -/
theorem toNat_append_field {m n : Nat} (x : BitVec m) (y : BitVec n) :
    (x ++ y).toNat = x.toNat * 2 ^ n + y.toNat := by
  rw [BitVec.toNat_append, ← Nat.shiftLeft_add_eq_or_of_lt y.isLt, Nat.shiftLeft_eq]

@[simp] theorem flagBit_toNat (b : Bool) : (flagBit b).toNat = b.toNat := BitVec.toNat_ofBool b

theorem ctrlWord_toNat (c : Ctrl) :
    (ctrlWord c).toNat = 2 * c.strict.toNat + 4 * c.trim.toNat + 8 * c.limitEn.toNat := by
  simp only [ctrlWord, toNat_append_field, flagBit_toNat, BitVec.toNat_ofNat]
  omega

theorem statusWord_toNat (st : Status) :
    (statusWord st).toNat = st.state.code.toNat + 4 * st.term.code.toNat + 256 * st.err.code.toNat +
      65536 * st.warnMarker.toNat + 131072 * st.warnResv.toNat := by
  simp only [statusWord, toNat_append_field, flagBit_toNat, BitVec.toNat_ofNat]
  omega

theorem faultWord_toNat (f : FaultInfo) :
    (faultWord f).toNat = f.op.toNat + 256 * f.next.toNat + 65536 * f.nextValid.toNat := by
  simp only [faultWord, toNat_append_field, flagBit_toNat, BitVec.toNat_ofNat]
  omega

/-- A register narrower than the port reads as its own number. -/
theorem toNat_setWidth_port {n : Nat} (hn : n ≤ 32) (x : BitVec n) : (x.setWidth 32).toNat = x.toNat := by
  rw [BitVec.toNat_setWidth_of_le hn]

/-! ## The statements about the register port -/

/-- Settles O28: the write is START, whose result the laws of `startCommand` give field by field. -/
theorem startStoresOptionsAndClearsResults : Obligations.StartStoresOptionsAndClearsResults := by
  intro s w rest hin hidle hstart
  refine ⟨_, step_of_start hin hidle hstart, rfl, rfl, rfl, rfl, ?_, rfl, rfl, rfl, rfl, rfl, rfl⟩
  exact ⟨rfl, rfl, rfl, rfl, rfl, rfl, rfl⟩

/-- Settles O39: one register for each offset of the map; under the invariant `STREAM_LEN` and `CURSOR` are at most
`STREAM_CAP`, for which `W_CUR` bits are enough. -/
theorem portReadsReturnTheRegisterMap : Obligations.PortReadsReturnTheRegisterMap := by
  intro s offset rest hin halign
  refine ⟨portReadWord s offset, step_of_portRead hin halign, ?ctrl, ?status, ?streamLen, ?maxInsns, ?declLen, ?marker,
    ?resv, ?cursor, ?outLen, ?insnCount, ?fault, portReadWord_of_unmapped s, ?widths⟩
  case ctrl => rintro rfl; exact ctrlWord_toNat s.ctrl
  case status => rintro rfl; exact statusWord_toNat s.status
  case streamLen => rintro rfl; rfl
  case maxInsns => rintro rfl; exact toNat_setWidth_port (by decide) s.maxInsns
  case declLen => rintro rfl; exact toNat_setWidth_port (by decide) s.declLen
  case marker => rintro rfl; rfl
  case resv => rintro rfl; exact toNat_setWidth_port (by decide) s.resv
  case cursor => rintro rfl; rfl
  case outLen => rintro rfl; exact toNat_setWidth_port (by decide) s.outLen
  case insnCount => rintro rfl; exact toNat_setWidth_port (by decide) s.insnCount
  case fault => rintro rfl; exact faultWord_toNat s.faultReg
  case widths =>
    rintro hinv (rfl | rfl)
    · exact lt_of_le_of_lt hinv.streamLen streamCap_lt_wCur
    · exact lt_of_le_of_lt hinv.cursor streamCap_lt_wCur

/-- Settles O40: no register of the map lies from 0x2C on, only three are writable, and the rest of the accesses fail
the check of the port. -/
theorem portAccessRules : Obligations.PortAccessRules := by
  intro s offset width value rest
  refine ⟨?read, ?write, step_refuses_portAccess⟩
  case read =>
    rintro hin rfl halign hunmapped
    rw [step_of_portRead hin halign, portReadWord_of_unmapped s hunmapped]
  case write =>
    rintro hin rfl halign h0 h8 hC
    rw [step_of_portWrite hin halign, portWriteWord_of_other_offset _ value h0 h8 hC]

/-- Settles O41. -/
theorem writesWhileBusyAreIgnored : Obligations.WritesWhileBusyAreIgnored := by
  intro s offset value rest hin halign hbusy
  exact (step_of_portWrite hin halign).trans (congrArg _ (portWriteWord_of_busy offset value hbusy))

/-- Settles O43: the three writable registers, one by one. -/
theorem portWritesStoreConfiguration : Obligations.PortWritesStoreConfiguration := by
  intro s offset value rest hin hidle
  have hwrite := portWriteWord_of_not_busy (s := { s with inputs := rest, trace := none }) offset value hidle
  refine ⟨?ctrl, ?streamLen, ?maxInsns⟩
  case ctrl =>
    rintro rfl hnoStart
    refine ⟨ctrlOptions value, ?_, rfl, rfl, rfl⟩
    rw [step_of_portWrite hin rfl, hwrite, if_pos rfl, writeCtrl, if_neg (by rw [hnoStart]; decide)]
  case streamLen =>
    rintro rfl
    refine ⟨BitVec.ofNat 32 (min value.toNat Config.streamCap), ?_, ?_⟩
    · rw [step_of_portWrite hin rfl, hwrite]
      rfl
    · rw [BitVec.toNat_ofNat]
      omega
  case maxInsns =>
    rintro rfl
    refine ⟨value.setWidth 16, ?_, BitVec.toNat_setWidth 16 value⟩
    rw [step_of_portWrite hin rfl, hwrite]
    rfl

/-! ## The statements about the memories and the reset input -/

theorem outWindow_of_beyond {s : State} {a : Nat} (h : Config.outCap ≤ a) : outWindow s a = 0#8 :=
  if_neg (by rw [fitsOut_iff]; omega)

/-- Where O exists the window shows the output and, from `OUT_LEN` on, a free value (spec R95, R100). -/
theorem outWindow_of_lt {s : State} {a : Nat} (h : a < Config.outCap) :
    outWindow s a = if a < s.outLen.toNat then outByte s a else Config.unspecifiedOut s.outEpoch a :=
  if_pos ((fitsOut_iff (a + 1)).2 h)

/-- Settles O44: the window by its three ranges of addresses. -/
theorem outputWindowShowsTheOutput : Obligations.OutputWindowShowsTheOutput := by
  intro s a v rest
  refine ⟨fun hin => ⟨outWindow s a, step_of_host_waiting hin, outWindow_of_beyond, fun hcap hlt => ?output,
    fun hcap hge => ?free⟩, step_of_host_waiting⟩
  case output => rw [outWindow_of_lt hcap, if_pos hlt]
  case free => rw [outWindow_of_lt hcap, if_neg (Nat.not_lt.2 hge)]

/-- Settles O45: the two checks of the store in their order, then the law of the memory's write. -/
theorem hostStreamWrites : Obligations.HostStreamWrites := by
  intro s a v rest hin
  have hstep : step s = streamStore a v { s with inputs := rest, trace := none } := step_of_host_waiting hin
  have hguard : (s.busy && decide (a < s.streamLen.toNat)) = true ↔ s.status.state = .busy ∧ a < s.streamLen.toNat := by
    rw [Bool.and_eq_true, busy_iff, decide_eq_true_iff]
  refine ⟨fun hbusy hlt => ?refused, fun hfree hbeyond => ?fault, fun hfree hcap => ?stored⟩
  case refused => exact hstep.trans (if_pos (hguard.2 ⟨hbusy, hlt⟩))
  case fault =>
    exact hstep.trans ((if_neg (mt hguard.1 hfree)).trans (if_neg (Nat.not_lt.2 hbeyond)))
  case stored =>
    exact ⟨Memory.write s.stream a v, hstep.trans ((if_neg (mt hguard.1 hfree)).trans (if_pos hcap)),
      lookup_write_same s.stream a v, fun x hx => lookup_write_other s.stream v hx⟩

/-- Settles O48: every register by the laws of `resetStep`; with `OUT_LEN` 0 the window shows no output. -/
theorem resetInputClearsEveryRegister : Obligations.ResetInputClearsEveryRegister := by
  intro s rest hin
  refine ⟨_, step_of_rst_waiting hin, ⟨rfl, rfl, rfl, rfl, rfl, rfl, rfl⟩, rfl, rfl, rfl, rfl, rfl, rfl, rfl, rfl, rfl,
    fun a hcap => ?window⟩
  rw [outWindow_of_lt hcap]
  exact if_neg (Nat.not_lt_zero a)

end Sys2Proof.Machine
end

section
/-! PROOF. The instruction that `withFetchWord` places is the one the next step runs (logs 11, 12). -/

namespace Sys2Proof.Machine

theorem fetchPlace_bounds (s : State) : 8 ≤ fetchPlace s ∧ fetchPlace s + 2 < 2 ^ 32 := by
  unfold fetchPlace
  split_ifs with h
  · exact h
  · omega

section
variable (s : State) (b n : Byte)

theorem loadInstruction_inLoop : InLoop (loadInstruction s b n) := ⟨rfl, rfl⟩

theorem loadInstruction_cursor : (loadInstruction s b n).cursor.toNat = fetchPlace s := by
  have hplace := fetchPlace_bounds s
  show (BitVec.ofNat 32 (fetchPlace s)).toNat = fetchPlace s
  rw [BitVec.toNat_ofNat]
  omega

theorem loadInstruction_streamLen :
    (loadInstruction s b n).streamLen.toNat = max s.streamLen.toNat (fetchPlace s + 2) := by
  have hplace := fetchPlace_bounds s
  show (BitVec.ofNat 32 (max s.streamLen.toNat (fetchPlace s + 2))).toNat = _
  rw [BitVec.toNat_ofNat]
  omega

/-- The choice of the declared length keeps an output short that is not at the greatest length already. -/
theorem toNat_lt_declLenChoice {o : BitVec 17} {d : BitVec 16} (h : o.toNat < 65535) :
    o.toNat < (if o.toNat < d.toNat then d else 65535#16).toNat := by
  split_ifs with hd
  · exact hd
  · exact h

theorem loadInstruction_outLen_lt : (loadInstruction s b n).outLen.toNat < (loadInstruction s b n).declLen.toNat := by
  refine toNat_lt_declLenChoice ?_
  show (if s.outLen.toNat < 65535 then s.outLen else 0#17).toNat < 65535
  split_ifs with h
  · exact h
  · decide

theorem loadInstruction_limitReached : limitReached (loadInstruction s b n) = false := by
  show (s.ctrl.limitEn && decide (s.insnCount.toNat < s.maxInsns.toNat) &&
    decide (s.maxInsns.toNat ≤ s.insnCount.toNat)) = false
  by_cases h : s.insnCount.toNat < s.maxInsns.toNat
  · simp [Nat.not_le.2 h]
  · simp [h]

theorem loadInstruction_reaches : ReachesInstruction (loadInstruction s b n) := by
  refine ⟨loadInstruction_outLen_lt s b n, ?_, loadInstruction_limitReached s b n⟩
  rw [loadInstruction_cursor, loadInstruction_streamLen]
  omega

/-- The fetch answers the two placed bytes. -/
theorem fetchInstr_loadInstruction : fetchInstr (loadInstruction s b n) = decodeOp b n := by
  have hnext : (loadInstruction s b n).cursor.toNat + 1 < (loadInstruction s b n).streamLen.toNat := by
    rw [loadInstruction_cursor, loadInstruction_streamLen]
    omega
  have hstream : (loadInstruction s b n).stream =
      Memory.write (Memory.write s.stream (fetchPlace s) b) (fetchPlace s + 1) n := rfl
  have hop : fetchOpcode (loadInstruction s b n) = b := by
    rw [fetchOpcode, streamByte, loadInstruction_cursor, hstream, lookup_write_other _ n (by omega),
      lookup_write_same, Option.getD_some]
  have harg : fetchNext (loadInstruction s b n) = n := by
    rw [fetchNext_of_hasNextByte hnext, streamByte, loadInstruction_cursor, hstream, lookup_write_same,
      Option.getD_some]
  rw [fetchInstr, hop, harg]

end

/-- Settles O8: at the placed state the loop step reaches an instruction, and the fetch answers the placed bytes. -/
theorem stepRunsThePlacedTableWord : Obligations.StepRunsThePlacedTableWord := by
  intro s nbits w i hword
  have hdecoded : i = decodeOp (tableWordBytes nbits w).1 (tableWordBytes nbits w).2 := by
    rw [decodeTableWord] at hword
    split at hword
    · next j rest hdecode =>
      cases hword
      exact decode_pair hdecode
    · cases hword
  rw [State.withFetchWord, step_of_inLoop rfl (loadInstruction_inLoop s _ _),
    loopStep_of_reachesInstruction (loadInstruction_reaches s _ _), fetchInstr_loadInstruction, hdecoded]

end Sys2Proof.Machine
end

section
/-! PROOF. Everything a step can do, in one inversion, and from it what every step keeps: the configuration, a finished
result, the output, the status, the memories and the invariant (spec R34, R42, R53, R54, R59, R189, R191, R283,
R304). -/

namespace Sys2Proof.Machine

/-! ## Everything a step can do -/

/-- What a step can do when it is neither START nor the reset input, at the state without the move it takes. -/
inductive Move (s : State) : State → Prop where
  /-- The header parse. -/
  | header (hbusy : s.status.state = .busy) (hpending : s.hdrPending = true) : Move s (headerParse s)
  /-- A loop step. -/
  | loop (t : State) (hloop : InLoop s) (hmove : LoopMove s t) : Move s t
  /-- A move that silences the trace port and at most answers a read. -/
  | quiet (r : Option Reply) : Move s { s with trace := none, reply := r }
  /-- A write of the configuration, which only an engine that is not BUSY takes. -/
  | configured (hidle : s.status.state ≠ .busy) (c : Ctrl) (l : Word) (m : BitVec 16)
      (hl : s.streamLen.toNat ≤ Config.streamCap → l.toNat ≤ Config.streamCap) :
      Move s { s with trace := none, ctrl := c, streamLen := l, maxInsns := m }
  /-- A host write of the stream memory. -/
  | stored (a : Nat) (v : Byte) (hcap : a < Config.streamCap) :
      Move s { s with trace := none, stream := Memory.write s.stream a v }

theorem move_of_engineStep {s t : State} (h : engineStep s = .next t) : Move s t := by
  obtain ⟨hbusy, hpending, hstep⟩ | ⟨hloop, hstep⟩ | ⟨-, hstep⟩ := engineStep_cases s
  · cases hstep.symm.trans h
    exact .header hbusy hpending
  · exact .loop t hloop (loopMove_of_loopStep (hstep.symm.trans h))
  · cases hstep.symm.trans h
    exact .quiet s.reply

/-- A register-port write is START or a move that keeps the result. -/
theorem move_of_portWrite (offset : Nat) (w : Word) (s : State) :
    Move s (portWriteWord offset w { s with trace := none }) ∨
    (s.status.state ≠ .busy ∧ offset = 0x00 ∧ w.getLsbD 0 = true ∧
      portWriteWord offset w { s with trace := none } = startCommand w s) := by
  obtain ⟨-, hw⟩ | ⟨hidle, h0, hstart, hw⟩ | ⟨hidle, -, -, hw⟩ | ⟨hidle, -, hw⟩ | ⟨hidle, -, hw⟩ | ⟨-, -, -, -, hw⟩ :=
    portWriteWord_cases offset w { s with trace := none }
  · rw [hw]; exact .inl (.quiet s.reply)
  · exact .inr ⟨hidle, h0, hstart, hw⟩
  · rw [hw]; exact .inl (.configured (s := s) hidle (ctrlOptions w) s.streamLen s.maxInsns id)
  · rw [hw]
    refine .inl (.configured (s := s) hidle s.ctrl (BitVec.ofNat 32 (min w.toNat Config.streamCap)) s.maxInsns
      fun _ => ?_)
    rw [BitVec.toNat_ofNat]
    exact (Nat.mod_le _ _).trans (Nat.min_le_right _ _)
  · rw [hw]; exact .inl (.configured (s := s) hidle s.ctrl s.streamLen (w.setWidth 16) id)
  · rw [hw]; exact .inl (.quiet s.reply)

theorem move_of_hostStep {op : HostOp} {s t : State} (h : hostStep op s = .next t) :
    Move s t ∨
    (s.status.state ≠ .busy ∧ ∃ w, op = .portWrite 0x00 4 w ∧ w.getLsbD 0 = true ∧ t = startCommand w s) := by
  obtain ⟨r, rfl⟩ | ⟨a, v, -, rfl⟩ | ⟨offset, w, rfl, -, rfl⟩ | ⟨a, v, -, -, hcap, rfl⟩ := hostStep_next_cases h
  · exact .inl (.quiet (some r))
  · exact .inl (.quiet s.reply)
  · obtain hmove | ⟨hidle, rfl, hstart, hw⟩ := move_of_portWrite offset w s
    · exact .inl hmove
    · exact .inr ⟨hidle, w, rfl, hstart, hw⟩
  · exact .inl (.stored a v hcap)

theorem endsResult_of_start {s : State} {w : Word} {rest : List Input}
    (hin : s.inputs = .host (.portWrite 0x00 4 w) :: rest) (hidle : s.status.state ≠ .busy)
    (hstart : w.getLsbD 0 = true) : endsResult s = true := by
  have hnot : s.busy = false := by rw [← Bool.not_eq_true, busy_iff]; exact hidle
  simp [endsResult, hin, hnot, hstart, portAccessOk]

theorem endsResult_of_rst {s : State} {rest : List Input} (hin : s.inputs = .rst :: rest) : endsResult s = true := by
  simp [endsResult, hin]

/-- Everything a step can do: a move that keeps the result, START, or the reset input. -/
theorem step_next_cases {s t : State} (h : step s = .next t) : ∃ rest,
    Move { s with inputs := rest } t ∨
    (s.status.state ≠ .busy ∧ endsResult s = true ∧ ∃ w, t = startCommand w { s with inputs := rest }) ∨
    (s.inputs = .rst :: rest ∧ t = resetStep { s with inputs := rest }) := by
  obtain ⟨hin, hstep⟩ | ⟨rest, hin, hstep⟩ | ⟨op, rest, hin, hstep⟩ | ⟨rest, hin, hstep⟩ := step_cases s
  · exact ⟨s.inputs, .inl (move_of_engineStep (hstep.symm.trans h))⟩
  · exact ⟨rest, .inl (move_of_engineStep (hstep.symm.trans h))⟩
  · obtain hmove | ⟨hidle, w, rfl, hstart, hstarted⟩ := move_of_hostStep (hstep.symm.trans h)
    · exact ⟨rest, .inl hmove⟩
    · exact ⟨rest, .inr (.inl ⟨hidle, endsResult_of_start hin hidle hstart, w, hstarted⟩)⟩
  · cases hstep.symm.trans h
    exact ⟨rest, .inr (.inr ⟨hin, rfl⟩)⟩

/-- While no waiting move ends the result, a step is one of the moves that keep it. -/
theorem move_of_step_of_not_endsResult {s t : State} (h : step s = .next t) (hend : endsResult s = false) :
    ∃ rest, Move { s with inputs := rest } t := by
  obtain ⟨rest, hmove | ⟨-, hends, -⟩ | ⟨hin, -⟩⟩ := step_next_cases h
  · exact ⟨rest, hmove⟩
  · rw [hends] at hend; cases hend
  · rw [endsResult_of_rst hin] at hend; cases hend

/-! ## What a loop step and a header parse keep -/

theorem LoopMove.kept {s t : State} (h : LoopMove s t) :
    ConfigKept s t ∧ HeaderKept s t ∧ t.status.warnMarker = s.status.warnMarker ∧
    t.status.warnResv = s.status.warnResv := by
  cases h with
  | terminated r _ => exact ⟨⟨rfl, rfl, rfl⟩, ⟨rfl, rfl, rfl, rfl, rfl, rfl, rfl, rfl⟩, rfl, rfl⟩
  | ran t _ hrun =>
    cases hrun
    all_goals exact ⟨⟨rfl, rfl, rfl⟩, ⟨rfl, rfl, rfl, rfl, rfl, rfl, rfl, rfl⟩, rfl, rfl⟩

/-- A loop step writes no byte of the output it finds, and never shortens it. -/
theorem LoopMove.append_only {s t : State} (h : LoopMove s t) :
    s.outLen.toNat ≤ t.outLen.toNat ∧ ∀ a, a < s.outLen.toNat → Memory.lookup t.out a = Memory.lookup s.out a := by
  cases h with
  | terminated r _ => exact ⟨le_refl _, fun _ _ => rfl⟩
  | ran t hreach hrun =>
    have ⟨hshort, _, _⟩ := hreach
    cases hrun with
    | halted e f _ => exact ⟨le_refl _, fun _ _ => rfl⟩
    | committed src k _ hle _ hcursor =>
      obtain ⟨hout, -, -, hkeep, -⟩ := committedBy_committedState src hshort hle hcursor
      exact ⟨by omega, fun a ha => hkeep a (.inl ha)⟩

/-- The header parse leaves the configuration, both memories and all that an instruction changes but `CURSOR`. -/
theorem headerParse_kept (s : State) :
    ConfigKept s (headerParse s) ∧ (headerParse s).stream = s.stream ∧ (headerParse s).out = s.out ∧
    (headerParse s).outLen = s.outLen ∧ (headerParse s).insnCount = s.insnCount ∧
    (headerParse s).faultReg = s.faultReg ∧ (headerParse s).hdrPending = false := by
  obtain ⟨-, hparse⟩ | ⟨-, l, rfl, ⟨-, -, hparse⟩ | ⟨-, -, -, hparse⟩ | ⟨-, hparse⟩⟩ := headerParse_cases s
  all_goals
    rw [hparse]
    exact ⟨⟨rfl, rfl, rfl⟩, rfl, rfl, rfl, rfl, rfl, rfl⟩

/-! ## The configuration, the result and the output -/

/-- Settles O42: BUSY takes no START and no write of the configuration, and the loop leaves the header registers. -/
theorem configurationIsConstantWhileBusy : Obligations.ConfigurationIsConstantWhileBusy := by
  intro s t hbusy hnoRst hstep
  obtain ⟨rest, hmove | ⟨hidle, -⟩ | ⟨hin, -⟩⟩ := step_next_cases hstep
  · cases hmove with
    | header _ hpending =>
      obtain ⟨hconfig, -⟩ := headerParse_kept { s with inputs := rest }
      exact ⟨hconfig, fun hnot => absurd (hnot.symm.trans hpending) (by decide)⟩
    | loop t _ hmove =>
      obtain ⟨hconfig, ⟨hdecl, hmarker, hresv, -⟩, hwarnM, hwarnR⟩ := hmove.kept
      exact ⟨hconfig, fun _ => ⟨hdecl, hmarker, hresv, hwarnM, hwarnR⟩⟩
    | quiet r => exact ⟨⟨rfl, rfl, rfl⟩, fun _ => ⟨rfl, rfl, rfl, rfl, rfl⟩⟩
    | configured hidle => exact absurd hbusy hidle
    | stored a v _ => exact ⟨⟨rfl, rfl, rfl⟩, fun _ => ⟨rfl, rfl, rfl, rfl, rfl⟩⟩
  · exact absurd hbusy hidle
  · exact absurd hin (hnoRst rest)

theorem not_busy_of_done {s : State} (h : s.done = true) : s.status.state ≠ .busy := by
  intro hbusy
  rw [done_iff, hbusy] at h
  obtain h | h := h <;> cases h

/-- Settles O46: a done engine is not BUSY, and the moves left to it write no register of the result. -/
theorem resultStaysUntilStartOrReset : Obligations.ResultStaysUntilStartOrReset := by
  intro s t
  refine ⟨done_iff s, fun hdone hstep hend => ?_⟩
  have hidle := not_busy_of_done hdone
  obtain ⟨rest, hmove⟩ := move_of_step_of_not_endsResult hstep hend
  cases hmove with
  | header hbusy _ => exact absurd hbusy hidle
  | loop t hloop _ => exact absurd hloop.1 hidle
  | quiet r => exact ⟨hdone, rfl⟩
  | configured _ c l m _ => exact ⟨hdone, rfl⟩
  | stored a v _ => exact ⟨hdone, rfl⟩

/-- Settles O47: only a commit writes O, and it writes from `OUT_LEN` on. -/
theorem outputIsAppendOnly : Obligations.OutputIsAppendOnly := by
  intro s t hstep hend
  obtain ⟨rest, hmove⟩ := move_of_step_of_not_endsResult hstep hend
  cases hmove with
  | header _ _ =>
    obtain ⟨-, -, hout, hlen, -⟩ := headerParse_kept { s with inputs := rest }
    rw [hout, hlen]
    exact ⟨le_refl _, fun _ _ => rfl⟩
  | loop t _ hmove => exact hmove.append_only
  | quiet r => exact ⟨le_refl _, fun _ _ => rfl⟩
  | configured _ c l m _ => exact ⟨le_refl _, fun _ _ => rfl⟩
  | stored a v _ => exact ⟨le_refl _, fun _ _ => rfl⟩

/-! ## The status (spec R42) -/

theorem Status.consistent.of_busy {st : Status} (h : st.consistent) (hbusy : st.state = .busy) :
    st.term = .none ∧ st.err = .none := by
  obtain ⟨-, hterm, -, hnone, -⟩ := h
  have hnoTerm : st.term = .none := hnone.1 (.inr hbusy)
  refine ⟨hnoTerm, ?_⟩
  by_contra herr
  rw [hterm.2 herr] at hnoTerm
  cases hnoTerm

/-- A BUSY status without a reason and an error is consistent whatever the warnings (spec R42). -/
theorem Status.consistent_busy (warnMarker warnResv : Bool) :
    Status.consistent ⟨.busy, .none, .none, warnMarker, warnResv⟩ := by
  simp [Status.consistent]

theorem Status.consistent_error (st : Status) {e : Err} (he : e ≠ .none) :
    Status.consistent { st with state := .error, term := .error, err := e } := by
  simp [Status.consistent, he]

theorem Status.consistent_done {s : State} {r : Term} (hr : EndReason s r) {st : Status} (herr : st.err = .none) :
    Status.consistent { st with state := .done, term := r } := by
  cases r with
  | none => exact hr.elim
  | error => exact hr.elim
  | lengthReached | inputExhausted | limitReached => simp [Status.consistent, herr]

theorem headerParse_status_consistent {s : State} (hbusy : s.status.state = .busy) (h : s.status.consistent) :
    (headerParse s).status.consistent := by
  obtain ⟨hterm, herr⟩ := h.of_busy hbusy
  obtain ⟨-, hparse⟩ | ⟨-, l, rfl, ⟨-, -, hparse⟩ | ⟨-, -, -, hparse⟩ | ⟨-, hparse⟩⟩ := headerParse_cases s
  · rw [hparse]; exact Status.consistent_error _ (by decide)
  · rw [hparse]; exact Status.consistent_error _ (by decide)
  · rw [hparse]; exact Status.consistent_error _ (by decide)
  · rw [hparse]
    simp only [headerLoad_status, hbusy, hterm, herr]
    exact Status.consistent_busy _ _

theorem LoopMove.status_consistent {s t : State} (hmove : LoopMove s t) (hbusy : s.status.state = .busy)
    (h : s.status.consistent) : t.status.consistent := by
  cases hmove with
  | terminated r hr => exact Status.consistent_done hr (h.of_busy hbusy).2
  | ran t _ hrun =>
    cases hrun with
    | committed => exact h
    | halted e f he => exact Status.consistent_error _ (by rintro rfl; obtain he | he := he <;> cases he)

/-- Settles O49: each move that changes `STATUS` writes it whole. -/
theorem statusFieldsStayConsistent : Obligations.StatusFieldsStayConsistent := by
  intro s t hstatus hstep
  obtain ⟨rest, hmove | ⟨-, -, w, rfl⟩ | ⟨-, rfl⟩⟩ := step_next_cases hstep
  · cases hmove with
    | header hbusy _ => exact headerParse_status_consistent hbusy hstatus
    | loop t hloop hmove => exact hmove.status_consistent hloop.1 hstatus
    | quiet r => exact hstatus
    | configured _ c l m _ => exact hstatus
    | stored a v _ => exact hstatus
  · exact Status.consistent_busy _ _
  · simp [Status.consistent, State.reset]

/-! ## The memories (spec R53, R54) -/

theorem memoriesOk_of_stored {s t : State} {a : Nat} {v : Byte} (h : MemoriesOk s) (hcap : a < Config.streamCap)
    (hstream : t.stream = Memory.write s.stream a v) (hout : t.out = s.out) : MemoriesOk t := by
  obtain ⟨hwfS, hwfO, hS, hO⟩ := h
  rw [MemoriesOk, hstream, hout]
  refine ⟨wf_write _ _ _ hwfS, hwfO, fun c hc => ?_, hO⟩
  obtain rfl | hc := mem_write hc
  · exact hcap
  · exact hS c hc

theorem LoopMove.memoriesOk {s t : State} (hmove : LoopMove s t) (h : MemoriesOk s) : MemoriesOk t := by
  cases hmove with
  | terminated r _ => exact h
  | ran t hreach hrun =>
    cases hrun with
    | halted e f _ => exact h
    | committed src k _ hle _ _ =>
      obtain ⟨hwfS, hwfO, hS, hO⟩ := h
      obtain ⟨hshort, -, -⟩ := hreach
      have hcap := outCap_ge
      have hroom : s.outLen.toNat + (appendFragment s src k).length ≤ Config.outCap := by
        rw [appendFragment_length]; omega
      exact ⟨hwfS, wf_writeBytes _ _ _ hwfO, hS, below_writeBytes _ _ _ _ hO hroom⟩

/-- Settles O50: the two writes there are keep the canonical form, the host's below `STREAM_CAP` and a commit's below
`OUT_CAP`. -/
theorem memoriesStayCanonical : Obligations.MemoriesStayCanonical := by
  intro s t hmem hstep
  obtain ⟨rest, hmove | ⟨-, -, w, rfl⟩ | ⟨-, rfl⟩⟩ := step_next_cases hstep
  · cases hmove with
    | header _ _ =>
      obtain ⟨-, hstream, hout, -⟩ := headerParse_kept { s with inputs := rest }
      rw [MemoriesOk, hstream, hout]
      exact hmem
    | loop t _ hmove => exact hmove.memoriesOk hmem
    | quiet r => exact hmem
    | configured _ c l m _ => exact hmem
    | stored a v hcap => exact memoriesOk_of_stored hmem hcap rfl rfl
  · exact hmem
  · obtain ⟨hwfS, -, hS, -⟩ := hmem
    exact ⟨hwfS, rfl, hS, fun c hc => nomatch hc⟩

/-! ## The invariant -/

theorem outputWritten_of_outLen_zero {s : State} (h : s.outLen = 0#17) : OutputWritten s := by
  intro a ha
  rw [h] at ha
  exact absurd ha (Nat.not_lt_zero a)

/-- A header error leaves `CURSOR`, the output, the count and `FAULT` as START cleared them, which are the bounds of a
finished decode (spec R270, R276). -/
theorem finishedBounds_of_headerError {s : State} (hstate : s.status.state = .error) (hterm : s.status.term = .error)
    (herr : s.status.err.ofHeader = true) (hcursor : s.cursor = 0#32) (hout : s.outLen = 0#17)
    (hcount : s.insnCount = 0#16) (hfault : s.faultReg = ⟨0#8, 0#8, false⟩) : FinishedBounds s := by
  refine ⟨by simp [hcount], by simp [hcount], by simp [hout], outputWritten_of_outLen_zero hout, ?_, ?_, ?_,
    fun _ _ => ⟨hcursor, hout, hcount, hfault⟩, ?_⟩
  · simp [hterm]
  · simp [hterm]
  · simp [hstate]
  · simp [herr]

/-- The loop is entered at its bounds (spec R158, R191). -/
theorem loopBounds_of_entry {s : State} (hcursor : s.cursor = 8#32) (hlen : 8 ≤ s.streamLen.toNat)
    (hout : s.outLen = 0#17) (hcount : s.insnCount = 0#16) (hfault : s.faultReg = ⟨0#8, 0#8, false⟩) :
    LoopBounds s := by
  refine ⟨?_, ?_, ?_, ?_, ?_, ?_, hfault, outputWritten_of_outLen_zero hout⟩
  all_goals simp [hcursor, hout, hcount, hlen]

/-- How a header parse of cleared results ends: in a header error within a finished decode's bounds, or in the loop
within its bounds (spec R151, R191). -/
theorem headerParse_bounds {s : State} (hbusy : s.status.state = .busy) (hclear : ResultsClear s) :
    ((headerParse s).status.state = .error ∧ (headerParse s).status.term = .error ∧ (headerParse s).cursor = 0#32 ∧
      FinishedBounds (headerParse s)) ∨
    ((headerParse s).status.state = .busy ∧ (headerParse s).cursor = 8#32 ∧ 8 ≤ s.streamLen.toNat ∧
      LoopBounds (headerParse s)) := by
  obtain ⟨-, -, -, hcursor, hout, hcount, hfault⟩ := hclear
  obtain ⟨-, hparse⟩ | ⟨hlen, l, rfl, ⟨-, -, hparse⟩ | ⟨-, -, -, hparse⟩ | ⟨-, hparse⟩⟩ := headerParse_cases s
  · rw [hparse]
    exact .inl ⟨rfl, rfl, hcursor, finishedBounds_of_headerError rfl rfl rfl hcursor hout hcount hfault⟩
  · rw [hparse]
    exact .inl ⟨rfl, rfl, hcursor, finishedBounds_of_headerError rfl rfl rfl hcursor hout hcount hfault⟩
  · rw [hparse]
    exact .inl ⟨rfl, rfl, hcursor, finishedBounds_of_headerError rfl rfl rfl hcursor hout hcount hfault⟩
  · rw [hparse]
    exact .inr ⟨hbusy, rfl, hlen, loopBounds_of_entry rfl hlen hout hcount hfault⟩

/-- A termination in the loop's bounds is within a finished decode's bounds (spec R187, R188, R304). -/
theorem finishedBounds_of_terminated {s : State} {r : Term} (h : LoopBounds s) (hr : EndReason s r) :
    FinishedBounds (terminate r s) := by
  obtain ⟨hcursor, -, hcount, hdecl, hfree, htrim, hfault, hwritten⟩ := h
  have hover : s.outLen.toNat ≤ s.declLen.toNat + 16 := by
    cases ht : s.ctrl.trim
    · exact hfree ht
    · exact (htrim ht).trans (Nat.le_add_right _ _)
  refine ⟨hcount, hdecl, hover, hwritten, ?_, ?_, fun _ => ⟨hcursor, hfault⟩, ?_, ?_⟩
  · rintro rfl; exact hr
  · rintro (rfl | rfl)
    · exact hr.1
    · exact hr.1
  · simp
  · simp

/-- An instruction error in the loop's bounds is within a finished decode's bounds (spec R270, R276). -/
theorem finishedBounds_of_halted {s : State} {e : Err} {f : FaultInfo} (h : LoopBounds s)
    (hshort : s.outLen.toNat < s.declLen.toNat) (he : e = .truncatedInstruction ∨ e = .invalidBackReference) :
    FinishedBounds (raiseError e (some f) s) := by
  obtain ⟨hcursor, -, hcount, hdecl, -, -, -, hwritten⟩ := h
  have hnot : e.ofHeader = false := by obtain rfl | rfl := he <;> rfl
  refine ⟨hcount, hdecl, (Nat.le_of_lt hshort).trans (Nat.le_add_right _ _), hwritten, ?_, ?_, ?_, ?_,
    fun _ _ => ⟨hcursor, hshort⟩⟩
  · simp
  · simp
  · simp
  · simp [hnot]

/-- A commit keeps the loop's bounds: every instruction adds at least one byte to an output that was short (spec R59,
R191). -/
theorem loopBounds_of_committed {s : State} {src : AppendSource} {k : Nat} {i : Instr} (h : LoopBounds s)
    (hshort : s.outLen.toNat < s.declLen.toNat) (hpos : 1 ≤ k) (hle : k ≤ 17)
    (htrim : s.ctrl.trim = true → s.outLen.toNat + k ≤ s.declLen.toNat)
    (hcursor : s.cursor.toNat + instrLength i.opcodeByte ≤ s.streamLen.toNat) :
    LoopBounds (committedState s src k (instrLength i.opcodeByte) i) := by
  obtain ⟨hentry, -, hcount, hdecl, -, -, hfault, hwritten⟩ := h
  obtain ⟨⟨hout, hcur, hinsn, hkeep, -⟩, hdata, -⟩ :=
    committedState_spec (s := s) (src := src) (k := k) (adv := instrLength i.opcodeByte) (i := i) (by omega) (by omega)
      (by omega)
  have hinsn' : (committedState s src k (instrLength i.opcodeByte) i).insnCount.toNat = s.insnCount.toNat + 1 := by
    rw [hinsn, BitVec.toNat_add, BitVec.toNat_ofNat]
    omega
  rw [LoopBounds, hout, hcur, hinsn']
  refine ⟨by omega, hcursor, by omega, ?_, fun _ => ?_, htrim, hfault, fun a ha => ?_⟩
  · show s.insnCount.toNat + 1 ≤ s.declLen.toNat
    omega
  · show s.outLen.toNat + k ≤ s.declLen.toNat + 16
    omega
  · rw [hout] at ha
    by_cases hold : a < s.outLen.toNat
    · rw [hkeep a (.inl hold)]
      exact hwritten a hold
    · have hnew := hdata (a - s.outLen.toNat) (by omega)
      rw [show s.outLen.toNat + (a - s.outLen.toNat) = a by omega] at hnew
      rw [hnew, Option.isSome_some]

/-- A loop step within the loop's bounds stays within them or ends within a finished decode's. -/
theorem LoopMove.bounds {s t : State} (hmove : LoopMove s t) (hbusy : s.status.state = .busy) (h : LoopBounds s) :
    (t.status.state = .busy ∧ LoopBounds t) ∨ (t.done = true ∧ FinishedBounds t) := by
  cases hmove with
  | terminated r hr => exact .inr ⟨rfl, finishedBounds_of_terminated h hr⟩
  | ran t hreach hrun =>
    obtain ⟨hshort, -, -⟩ := hreach
    cases hrun with
    | committed src k hpos hle htrim hcursor =>
      exact .inl ⟨hbusy, loopBounds_of_committed h hshort hpos hle htrim hcursor⟩
    | halted e f he => exact .inr ⟨rfl, finishedBounds_of_halted h hshort he⟩

/-- A loop step leaves `CURSOR` or moves it within the stream. -/
theorem LoopMove.cursor_le {s t : State} (hmove : LoopMove s t) {n : Nat} (hcursor : s.cursor.toNat ≤ n)
    (hlen : s.streamLen.toNat ≤ n) : t.cursor.toNat ≤ n := by
  cases hmove with
  | terminated r _ => exact hcursor
  | ran t hreach hrun =>
    obtain ⟨hshort, -, -⟩ := hreach
    cases hrun with
    | halted e f _ => exact hcursor
    | committed src k _ hle _ hend =>
      obtain ⟨-, hcur, -⟩ := committedBy_committedState src hshort hle hend
      omega

theorem Invariant.headerParse {s : State} (h : Invariant s) (hbusy : s.status.state = .busy)
    (hpending : s.hdrPending = true) : Invariant (headerParse s) := by
  obtain ⟨-, hclear, -, -⟩ := h.pending hpending
  obtain ⟨⟨-, hlen, -⟩, hstream, hout, -, -, -, hparsed⟩ := headerParse_kept s
  have hmem : MemoriesOk (Machine.headerParse s) := by
    rw [MemoriesOk, hstream, hout]
    exact h.memories
  have hcap := streamCap_ge
  obtain ⟨hstate, -, hcursor, hfinished⟩ | ⟨hstate, hcursor, -, hloop⟩ := headerParse_bounds hbusy hclear
  · exact ⟨headerParse_status_consistent hbusy h.status, hmem, hlen ▸ h.streamLen, by simp [hcursor],
      by simp [hstate], by simp [hparsed], by simp [hstate], fun _ => hfinished⟩
  · exact ⟨headerParse_status_consistent hbusy h.status, hmem, hlen ▸ h.streamLen, by simp [hcursor, hcap],
      by simp [hstate], by simp [hparsed], fun _ _ => hloop, by simp [hstate]⟩

theorem Invariant.loopMove {s t : State} (h : Invariant s) (hloop : InLoop s) (hmove : LoopMove s t) : Invariant t := by
  obtain ⟨hbusy, hparsed⟩ := hloop
  obtain ⟨⟨-, hlen, -⟩, ⟨-, -, -, -, hpending, -⟩, -⟩ := hmove.kept
  have hparsed' : t.hdrPending = false := hpending.trans hparsed
  have hstatus := hmove.status_consistent hbusy h.status
  have hmem := hmove.memoriesOk h.memories
  have hcursor := hmove.cursor_le h.cursor h.streamLen
  obtain ⟨hstate, hbounds⟩ | ⟨hdone, hbounds⟩ := hmove.bounds hbusy (h.loop hbusy hparsed)
  · exact ⟨hstatus, hmem, hlen ▸ h.streamLen, hcursor, by simp [hstate], by simp [hparsed'], fun _ _ => hbounds,
      by simp [hstate]⟩
  · have hnotIdle : t.status.state ≠ .idle := by
      intro hidle
      rw [done_iff, hidle] at hdone
      obtain hdone | hdone := hdone <;> cases hdone
    exact ⟨hstatus, hmem, hlen ▸ h.streamLen, hcursor, fun hidle => absurd hidle hnotIdle, by simp [hparsed'],
      fun hbusy => absurd hbusy (not_busy_of_done hdone), fun _ => hbounds⟩

/-- START from a state within the invariant: the results are clear and the parse is to come (spec R150). -/
theorem Invariant.startCommand {s : State} (h : Invariant s) (w : Word) : Invariant (startCommand w s) where
  status := Status.consistent_busy _ _
  memories := h.memories
  streamLen := h.streamLen
  cursor := Nat.zero_le _
  idle := by simp
  pending _ := ⟨rfl, ⟨rfl, rfl, rfl, rfl, rfl, rfl, rfl⟩, rfl, rfl⟩
  loop := by simp
  finished := by simp

/-- The registers after reset meet the invariant over every stream that is canonical (spec R58, R300). -/
theorem Invariant.resetStep {s : State} (h : MemoriesOk s) : Invariant (resetStep s) where
  status := by simp [Status.consistent, State.reset]
  memories := by
    obtain ⟨hwf, -, hstream, -⟩ := h
    exact ⟨hwf, rfl, hstream, fun c hc => nomatch hc⟩
  streamLen := Nat.zero_le _
  cursor := Nat.zero_le _
  idle _ := ⟨rfl, rfl, rfl, rfl, rfl, rfl, rfl⟩
  pending := by simp [State.reset]
  loop := by simp [State.reset]
  finished := by simp [State.reset]

theorem Invariant.move {s t : State} (h : Invariant s) (hmove : Move s t) : Invariant t := by
  cases hmove with
  | header hbusy hpending => exact h.headerParse hbusy hpending
  | loop t hloop hmove => exact h.loopMove hloop hmove
  | quiet r => exact ⟨h.status, h.memories, h.streamLen, h.cursor, h.idle, h.pending, h.loop, h.finished⟩
  | configured hidle c l m hl =>
    exact ⟨h.status, h.memories, hl h.streamLen, h.cursor, h.idle, h.pending, fun hbusy => absurd hbusy hidle,
      h.finished⟩
  | stored a v hcap =>
    exact ⟨h.status, memoriesOk_of_stored h.memories hcap rfl rfl, h.streamLen, h.cursor, h.idle, h.pending, h.loop,
      h.finished⟩

/-- Settles O51: every kind of step keeps the invariant, which does not speak of the waiting moves. -/
theorem stepKeepsTheInvariant : Obligations.StepKeepsTheInvariant := by
  intro s t hinv hstep
  obtain ⟨rest, hcases⟩ := step_next_cases hstep
  have h : Invariant { s with inputs := rest } :=
    ⟨hinv.status, hinv.memories, hinv.streamLen, hinv.cursor, hinv.idle, hinv.pending, hinv.loop, hinv.finished⟩
  obtain hmove | ⟨-, -, w, rfl⟩ | ⟨-, rfl⟩ := hcases
  · exact h.move hmove
  · exact h.startCommand w
  · exact .resetStep h.memories

/-- Settles O52: nothing is listed in either memory, every register is 0 and the engine is idle. -/
theorem resetMeetsTheInvariant : Obligations.ResetMeetsTheInvariant := by
  have hempty : MemoriesOk State.reset := ⟨rfl, rfl, fun _ hc => (nomatch hc), fun _ hc => (nomatch hc)⟩
  have h := Invariant.resetStep hempty
  exact ⟨h.status, h.memories, h.streamLen, h.cursor, h.idle, h.pending, h.loop, h.finished⟩

end Sys2Proof.Machine
end

section
/-! PROOF. The whole decode: it ends within its bounds, stepping gives it, and what its termination says of the output
(spec R187, R188, R192, R193, R304). -/

namespace Sys2Proof.Machine

/-! ## The run of the loop -/

theorem runLoop_of_not_busy {s : State} (n : Nat) (h : s.status.state ≠ .busy) : runLoop n s = .next s := by
  cases n with
  | zero => rfl
  | succ n => exact if_neg (mt (busy_iff s).1 h)

theorem runLoop_of_busy {s t : State} (n : Nat) (hbusy : s.status.state = .busy) (hstep : loopStep s = .next t) :
    runLoop (n + 1) s = runLoop n t := by
  rw [runLoop, if_pos ((busy_iff s).2 hbusy), hstep]

theorem decodeRun_eq (w : Word) (s : State) :
    decodeRun w s = runLoop ((headerParse (startCommand w s)).declLen.toNat + 1) (headerParse (startCommand w s)) := rfl

/-- The registers START and the header parse write and the moves that wait are as they were. -/
def LoopKept (s t : State) : Prop := ConfigKept s t ∧ HeaderKept s t

theorem LoopKept.refl (s : State) : LoopKept s s :=
  ⟨⟨rfl, rfl, rfl⟩, rfl, rfl, rfl, rfl, rfl, rfl, rfl, rfl⟩

theorem LoopKept.trans {s t u : State} (h : LoopKept s t) (h' : LoopKept t u) : LoopKept s u := by
  obtain ⟨⟨hc, hl, hm⟩, hd, hmk, hr, hs, hp, hi, hy, ho⟩ := h
  obtain ⟨⟨hc', hl', hm'⟩, hd', hmk', hr', hs', hp', hi', hy', ho'⟩ := h'
  exact ⟨⟨hc'.trans hc, hl'.trans hl, hm'.trans hm⟩, hd'.trans hd, hmk'.trans hmk, hr'.trans hr, hs'.trans hs,
    hp'.trans hp, hi'.trans hi, hy'.trans hy, ho'.trans ho⟩

theorem LoopMove.loopKept {s t : State} (h : LoopMove s t) : LoopKept s t := by
  obtain ⟨hconfig, hheader, -⟩ := h.kept
  exact ⟨hconfig, hheader⟩

/-! ## What an ended decode is -/

/-- What holds where a decode has ended and the host has written nothing since: a finished decode's bounds, and what
each reason says of the configuration the decode ran with (spec R182, R183, R187, R304). -/
structure Ended (t : State) : Prop where
  done : t.done = true
  bounds : FinishedBounds t
  trim : t.ctrl.trim = true → t.outLen.toNat ≤ t.declLen.toNat
  exhausted : t.status.term = .inputExhausted → t.cursor = t.streamLen
  limited : t.status.term = .limitReached → t.ctrl.limitEn = true

theorem ended_of_terminated {s : State} {r : Term} (h : LoopBounds s) (hr : EndReason s r) :
    Ended (terminate r s) where
  done := rfl
  bounds := finishedBounds_of_terminated h hr
  trim := by
    obtain ⟨-, -, -, -, -, htrim, -⟩ := h
    exact htrim
  exhausted := by
    rintro rfl
    obtain ⟨-, hcursor, -⟩ := h
    obtain ⟨-, hend⟩ := hr
    exact BitVec.eq_of_toNat_eq (Nat.le_antisymm hcursor hend)
  limited := by
    rintro rfl
    obtain ⟨-, -, hlimit⟩ := hr
    rw [limitReached, Bool.and_eq_true] at hlimit
    exact hlimit.1

theorem ended_of_halted {s : State} {e : Err} {f : FaultInfo} (h : LoopBounds s)
    (hshort : s.outLen.toNat < s.declLen.toNat) (he : e = .truncatedInstruction ∨ e = .invalidBackReference) :
    Ended (raiseError e (some f) s) where
  done := rfl
  bounds := finishedBounds_of_halted h hshort he
  trim _ := Nat.le_of_lt hshort
  exhausted := by simp
  limited := by simp

/-- One loop step from within the bounds ends the decode or lengthens an output that was short. -/
theorem LoopMove.progress {s t : State} (hmove : LoopMove s t) (hbusy : s.status.state = .busy) (h : LoopBounds s) :
    Ended t ∨ (t.status.state = .busy ∧ LoopBounds t ∧ s.outLen.toNat < s.declLen.toNat ∧
      s.outLen.toNat < t.outLen.toNat) := by
  cases hmove with
  | terminated r hr => exact .inl (ended_of_terminated h hr)
  | ran t hreach hrun =>
    obtain ⟨hshort, -, -⟩ := hreach
    cases hrun with
    | halted e f he => exact .inl (ended_of_halted h hshort he)
    | committed src k hpos hle htrim hcursor =>
      obtain ⟨hout, -⟩ := committedBy_committedState src hshort hle hcursor
      exact .inr ⟨hbusy, loopBounds_of_committed h hshort hpos hle htrim hcursor, hshort, by omega⟩

/-- From within its bounds the loop ends in at most one step more than bytes are lacking (spec R192). -/
theorem runLoop_ends {n : Nat} {s : State} (hbusy : s.status.state = .busy) (h : LoopBounds s)
    (hn : s.declLen.toNat - s.outLen.toNat < n) : ∃ t, runLoop n s = .next t ∧ Ended t ∧ LoopKept s t := by
  induction n generalizing s with
  | zero => omega
  | succ n ih =>
    obtain ⟨t, hstep, hmove⟩ := loopStep_answers s
    have hkept := hmove.loopKept
    rw [runLoop_of_busy n hbusy hstep]
    obtain hended | ⟨hbusy', hbounds, hshort, hmore⟩ := hmove.progress hbusy h
    · exact ⟨t, runLoop_of_not_busy n (not_busy_of_done hended.done), hended, hkept⟩
    · have ⟨_, hdecl, _⟩ := hkept
      obtain ⟨u, hrun, hended, hkept'⟩ := ih hbusy' hbounds (by rw [hdecl]; omega)
      exact ⟨u, hrun, hended, hkept.trans hkept'⟩

/-- A header parse of cleared results ends the decode or enters the loop within its bounds (spec R152, R156, R158). -/
theorem headerParse_progress {s : State} (hbusy : s.status.state = .busy) (hclear : ResultsClear s) :
    Ended (headerParse s) ∨ ((headerParse s).status.state = .busy ∧ LoopBounds (headerParse s)) := by
  have ⟨_, _, _, _, hout0, _⟩ := hclear
  obtain ⟨-, -, -, hout, -⟩ := headerParse_kept s
  obtain ⟨hstate, hterm, -, hbounds⟩ | ⟨hstate, -, -, hbounds⟩ := headerParse_bounds hbusy hclear
  · refine .inl ⟨(done_iff _).2 (.inr hstate), hbounds, fun _ => ?_, ?_, ?_⟩
    · simp [hout, hout0]
    · simp [hterm]
    · simp [hterm]
  · exact .inr ⟨hstate, hbounds⟩

theorem startCommand_clear (w : Word) (s : State) : ResultsClear (startCommand w s) :=
  ⟨rfl, rfl, rfl, rfl, rfl, rfl, rfl⟩

/-- Every decode ends, with the configuration and the declared length of its START and header parse (spec R192). -/
theorem decodeRun_ends (w : Word) (s : State) :
    ∃ t, decodeRun w s = .next t ∧ Ended t ∧ LoopKept (headerParse (startCommand w s)) t := by
  rw [decodeRun_eq]
  obtain hended | ⟨hbusy, hbounds⟩ := headerParse_progress (s := startCommand w s) rfl (startCommand_clear w s)
  · exact ⟨_, runLoop_of_not_busy _ (not_busy_of_done hended.done), hended, .refl _⟩
  · exact runLoop_ends hbusy hbounds (by omega)

theorem ctrl_of_decodeRun {w : Word} {s t : State} (h : LoopKept (headerParse (startCommand w s)) t) :
    t.ctrl = ctrlOptions w := by
  obtain ⟨⟨hctrl, -⟩, -⟩ := h
  obtain ⟨⟨hparse, -⟩, -⟩ := headerParse_kept (startCommand w s)
  exact hctrl.trans hparse

/-! ## The statements -/

/-- Settles O34: the bound of the loop on the bytes that are lacking, from the empty output of START. -/
theorem everyDecodeEnds : Obligations.EveryDecodeEnds := by
  intro w s
  obtain ⟨t, hrun, hended, -⟩ := decodeRun_ends w s
  obtain ⟨-, hcount, -⟩ := hended.bounds
  exact ⟨t, hrun, hended.done, hcount⟩

/-- Settles O35: each part is a bound of the ended decode, and TRIM and the limit are the options START has stored. -/
theorem decodeResultMatchesItsTermination : Obligations.DecodeResultMatchesItsTermination := by
  intro w s t hrun
  obtain ⟨u, hrun', hended, hkept⟩ := decodeRun_ends w s
  cases hrun'.symm.trans hrun
  have hctrl := ctrl_of_decodeRun hkept
  obtain ⟨-, -, hover, -, hlong, hshort, -, hheader, hinstr⟩ := hended.bounds
  refine ⟨fun hterm => ⟨hlong hterm, hover, fun htrim => ?trim⟩,
    fun hterm => ⟨hshort (.inl hterm), hended.exhausted hterm⟩, fun hterm => ⟨hshort (.inr hterm), ?limit⟩,
    fun hstate herr => (hinstr hstate herr).2, fun hstate herr => ?header, by simp [State.output]⟩
  case trim =>
    have hle := hended.trim (by rw [hctrl]; exact htrim)
    exact Nat.le_antisymm hle (hlong hterm)
  case limit =>
    have hen := hended.limited hterm
    rw [hctrl] at hen
    exact hen
  case header =>
    obtain ⟨-, hout, -⟩ := hheader hstate herr
    exact hout

/-! ## The run of the steps -/

theorem runLoop_inputs (n : Nat) (s : State) (rest : List Input) :
    runLoop n { s with inputs := rest } = mapNext (fun t => { t with inputs := rest }) (runLoop n s) := by
  induction n generalizing s with
  | zero => rfl
  | succ n ih =>
    by_cases hbusy : s.status.state = .busy
    · obtain ⟨t, hstep, -⟩ := loopStep_answers s
      have hstep' := loopStep_inputs s rest
      rw [hstep, mapNext_next] at hstep'
      rw [runLoop_of_busy n hbusy hstep, runLoop_of_busy (s := { s with inputs := rest }) n hbusy hstep', ih]
    · rw [runLoop_of_not_busy _ hbusy, runLoop_of_not_busy (s := { s with inputs := rest }) _ hbusy, mapNext_next]

/-- Where no move waits, the steps of the machine are the steps of the loop until it ends. -/
theorem steps_eq_runLoop (n : Nat) {s : State} (hin : s.inputs = []) (hparsed : s.hdrPending = false) :
    ∃ j, j ≤ n ∧ steps j s = runLoop n s := by
  induction n generalizing s with
  | zero => exact ⟨0, le_refl _, rfl⟩
  | succ n ih =>
    by_cases hbusy : s.status.state = .busy
    · obtain ⟨t, hloop, hmove⟩ := loopStep_answers s
      obtain ⟨-, -, -, -, -, hpending, hinputs, -⟩ := hmove.loopKept
      obtain ⟨j, hj, hrun⟩ := ih (hinputs.trans hin) (hpending.trans hparsed)
      have hstep := (step_of_inLoop hin ⟨hbusy, hparsed⟩).trans hloop
      exact ⟨j + 1, by omega, by rw [steps_succ_of_next j hstep, hrun, runLoop_of_busy n hbusy hloop]⟩
    · exact ⟨0, by omega, (runLoop_of_not_busy _ hbusy).symm⟩

/-- Settles O55: one step for START, one for the header parse, and those of the loop; the moves that wait play no part
in the decode (`runLoop_inputs`). -/
theorem steppingGivesTheDecode : Obligations.SteppingGivesTheDecode := by
  intro w s hidle hin hstart
  obtain ⟨u, hrun, hended, -, hdecl, -⟩ := decodeRun_ends w s
  have hstarted : step s = .next { startCommand w s with inputs := [] } := step_of_start hin hidle hstart
  have hparsed : step { startCommand w s with inputs := [] } =
      .next { headerParse (startCommand w s) with inputs := [] } :=
    (step_of_hdrPending rfl rfl rfl).trans (congrArg _ (headerParse_inputs (startCommand w s) []))
  obtain ⟨-, -, -, -, -, -, hnotPending⟩ := headerParse_kept (startCommand w s)
  obtain ⟨j, hj, hloop⟩ := steps_eq_runLoop ((headerParse (startCommand w s)).declLen.toNat + 1)
    (s := { headerParse (startCommand w s) with inputs := [] }) rfl hnotPending
  rw [runLoop_inputs, ← decodeRun_eq, hrun, mapNext_next] at hloop
  refine ⟨j + 1 + 1, { u with inputs := [] }, u, ?_, hrun, rfl, hended.done, rfl, ?_⟩
  · rw [steps_succ_of_next _ hstarted, steps_succ_of_next _ hparsed, hloop]
  · show j + 1 + 1 ≤ u.declLen.toNat + 3
    rw [hdecl]
    omega

end Sys2Proof.Machine
end

section
/-! PROOF. In soft mode the marker bytes do not influence a decode: a state and the same state without its marker are
taken by the loop to two such states (spec R157). -/

namespace Sys2Proof.Machine

/-- The state without all that the marker bytes leave in it: `MARKER`, `WARN_MARKER` and the four bytes themselves. -/
def forgetMarker (s : State) : State :=
  { s with
    marker := 0#32
    status := { s.status with warnMarker := false }
    stream := Memory.writeBytes s.stream 0 [0#8, 0#8, 0#8, 0#8] }

theorem carries_forgetMarker : Carries forgetMarker forgetMarker where
  committedState _ src _ _ i := by cases src <;> cases i <;> rfl

theorem streamByte_forgetMarker_of_lt (s : State) {a : Nat} (ha : a < 4) : streamByte (forgetMarker s) a = 0#8 := by
  have hstored := lookup_writeBytes_inside [0#8, 0#8, 0#8, 0#8] s.stream 0 a ha
  rw [Nat.zero_add] at hstored
  rw [streamByte, forgetMarker, hstored, Option.getD_some]
  match a, ha with
  | 0, _ | 1, _ | 2, _ | 3, _ => rfl

theorem streamByte_forgetMarker_of_le (s : State) {a : Nat} (ha : 4 ≤ a) :
    streamByte (forgetMarker s) a = streamByte s a := by
  rw [streamByte, streamByte, forgetMarker, lookup_writeBytes_outside _ _ _ _ (.inr (by simpa using ha))]

/-- In the loop `CURSOR` is behind the header, so that the fetch does not see the marker (spec R158, R159). -/
theorem fetchInstr_forgetMarker {s : State} (hcursor : 8 ≤ s.cursor.toNat) :
    fetchInstr (forgetMarker s) = fetchInstr s := by
  have hop : fetchOpcode (forgetMarker s) = fetchOpcode s :=
    streamByte_forgetMarker_of_le s (a := s.cursor.toNat) (by omega)
  have hbyte : streamByte (forgetMarker s) (s.cursor.toNat + 1) = streamByte s (s.cursor.toNat + 1) :=
    streamByte_forgetMarker_of_le s (by omega)
  have hnext : fetchNext (forgetMarker s) = fetchNext s :=
    congrArg (fun b => if hasNextByte s then b else 0#8) hbyte
  rw [fetchInstr, fetchInstr, hop, hnext]

theorem LoopMove.cursor_mono {s t : State} (hmove : LoopMove s t) : s.cursor.toNat ≤ t.cursor.toNat := by
  cases hmove with
  | terminated r _ => exact le_refl _
  | ran t hreach hrun =>
    obtain ⟨hshort, -, -⟩ := hreach
    cases hrun with
    | halted e f _ => exact le_refl _
    | committed src k _ hle _ hend =>
      obtain ⟨-, hcur, -⟩ := committedBy_committedState src hshort hle hend
      omega

theorem runLoop_forgetMarker (n : Nat) {s : State} (hcursor : s.status.state = .busy → 8 ≤ s.cursor.toNat) :
    runLoop n (forgetMarker s) = mapNext forgetMarker (runLoop n s) := by
  induction n generalizing s with
  | zero => rfl
  | succ n ih =>
    by_cases hbusy : s.status.state = .busy
    · obtain ⟨t, hstep, hmove⟩ := loopStep_answers s
      have hmono := hmove.cursor_mono
      have hentry := hcursor hbusy
      have hstep' := carries_forgetMarker.loopStep fun _ => fetchInstr_forgetMarker hentry
      rw [hstep, mapNext_next] at hstep'
      rw [runLoop_of_busy n hbusy hstep, runLoop_of_busy (s := forgetMarker s) n hbusy hstep', ih fun _ => by omega]
    · rw [runLoop_of_not_busy _ hbusy, runLoop_of_not_busy (s := forgetMarker s) _ hbusy, mapNext_next]

/-! ## The header parse in soft mode -/

theorem headerParse_soft {w : Word} {s : State} (hsoft : w.getLsbD 1 = false) (hlen : 8 ≤ s.streamLen.toNat) :
    headerParse (startCommand w s) = { loadedHeader (startCommand w s) with cursor := 8#32 } :=
  headerParse_of_no_error (s := startCommand w s) hlen (.inl hsoft)

/-- What a soft parse leaves of the result beside the marker comes from the header bytes behind it. -/
theorem decodeResult_forgetMarker_soft {w : Word} {s : State} (hsoft : w.getLsbD 1 = false)
    (hlen : 8 ≤ s.streamLen.toNat) :
    decodeResult (forgetMarker (headerParse (startCommand w s))) =
      { status := ⟨.busy, .none, .none, false, reservedDiffers (streamByte s 6) (streamByte s 7)⟩
        declLen := streamByte s 4 ++ streamByte s 5, marker := 0#32, resv := streamByte s 7 ++ streamByte s 6
        cursor := 8#32, outLen := 0#17, insnCount := 0#16, fault := ⟨0#8, 0#8, false⟩, output := [] } := by
  rw [headerParse_soft hsoft hlen]
  rfl

/-- A BUSY engine has `CURSOR` at the entry point once its header parse is over (spec R158). -/
theorem headerParse_cursor_of_busy {w : Word} {s : State}
    (hbusy : (headerParse (startCommand w s)).status.state = .busy) :
    8 ≤ (headerParse (startCommand w s)).cursor.toNat := by
  obtain ⟨hstate, -⟩ | ⟨-, hcursor, -⟩ := headerParse_bounds (s := startCommand w s) rfl (startCommand_clear w s)
  · rw [hstate] at hbusy; cases hbusy
  · rw [hcursor]; decide

section
variable {w : Word} {s s' : State}

theorem forgetMarker_sameInput (hlen : s.streamLen = s'.streamLen) (hmax : s.maxInsns = s'.maxInsns)
    (hbytes : ∀ a, 4 ≤ a → a < s.streamLen.toNat → streamByte s a = streamByte s' a) :
    SameDecodeInput (forgetMarker s) (forgetMarker s') := by
  refine ⟨hlen, hmax, fun a ha => ?_⟩
  by_cases hmarker : a < 4
  · rw [streamByte_forgetMarker_of_lt s hmarker, streamByte_forgetMarker_of_lt s' hmarker]
  · have hbehind : 4 ≤ a := Nat.le_of_not_lt hmarker
    rw [streamByte_forgetMarker_of_le s hbehind, streamByte_forgetMarker_of_le s' hbehind, hbytes a hbehind ha]

/-- Without their markers, two streams that differ in the marker alone are parsed alike. -/
theorem headerParse_forgetMarker_agree (hsoft : w.getLsbD 1 = false) (hlen : s.streamLen = s'.streamLen)
    (hmax : s.maxInsns = s'.maxInsns)
    (hbytes : ∀ a, 4 ≤ a → a < s.streamLen.toNat → streamByte s a = streamByte s' a) :
    DecodeAgree (forgetMarker (headerParse (startCommand w s))) (forgetMarker (headerParse (startCommand w s'))) := by
  obtain ⟨⟨hctrl, hkeepLen, hkeepMax⟩, hstream, -⟩ := headerParse_kept (startCommand w s)
  obtain ⟨⟨hctrl', hkeepLen', hkeepMax'⟩, hstream', -⟩ := headerParse_kept (startCommand w s')
  refine ⟨forgetMarker_sameInput ?len ?max fun a h4 ha => ?byte, hctrl.trans hctrl'.symm, ?result⟩
  case len => rw [hkeepLen, hkeepLen']; exact hlen
  case max => rw [hkeepMax, hkeepMax']; exact hmax
  case byte =>
    rw [hkeepLen] at ha
    rw [streamByte, streamByte, hstream, hstream']
    exact hbytes a h4 ha
  case result =>
    by_cases hshort : s.streamLen.toNat < 8
    · rw [headerParse_of_short (s := startCommand w s) hshort,
        headerParse_of_short (s := startCommand w s') (hlen ▸ hshort)]
      rfl
    · have hlong : 8 ≤ s.streamLen.toNat := Nat.le_of_not_lt hshort
      rw [decodeResult_forgetMarker_soft hsoft hlong, decodeResult_forgetMarker_soft hsoft (hlen ▸ hlong),
        hbytes 4 (by omega) (by omega), hbytes 5 (by omega) (by omega), hbytes 6 (by omega) (by omega),
        hbytes 7 (by omega) (by omega)]

end

/-- Settles O37: without their markers both parses agree (`headerParse_forgetMarker_agree`), the loop keeps agreement
(`runLoop_agree`), and it carries the forgetting to its end (`runLoop_forgetMarker`). -/
theorem softModeIgnoresTheMarker : Obligations.SoftModeIgnoresTheMarker := by
  intro w s s' t hsoft hlen hmax hbytes hrun
  obtain ⟨t', hrun', -⟩ := decodeRun_ends w s'
  refine ⟨t', hrun', ?_⟩
  have hparse := headerParse_forgetMarker_agree hsoft hlen hmax hbytes
  have hdecl : (headerParse (startCommand w s)).declLen = (headerParse (startCommand w s')).declLen := hparse.declLen
  have hagree := runLoop_agree ((headerParse (startCommand w s)).declLen.toNat + 1) hparse
  rw [runLoop_forgetMarker _ headerParse_cursor_of_busy, runLoop_forgetMarker _ headerParse_cursor_of_busy,
    ← decodeRun_eq, hdecl, ← decodeRun_eq, hrun, hrun', mapNext_next, mapNext_next] at hagree
  cases hagree with
  | next hends => exact hends.result.symm

end Sys2Proof.Machine
end

section
/-! PROOF. A stream of literal escapes decodes to its operand bytes (spec R211). -/

namespace Sys2Proof.Machine

/-- The loop's state behind the first i literal escapes of a stream that holds nothing else: i bytes decoded, `CURSOR`
behind their i pairs. -/
structure LiteralPoint (s : State) (vs : List Byte) (i : Nat) (t : State) : Prop where
  busy : t.status.state = .busy
  cursor : t.cursor.toNat = 8 + 2 * i
  outLen : t.outLen.toNat = i
  insnCount : t.insnCount.toNat = i
  output : t.output = vs.take i
  declLen : t.declLen.toNat = declaredLength s
  streamLen : t.streamLen = s.streamLen
  stream : t.stream = s.stream
  noLimit : t.ctrl.limitEn = false

section
variable {s t : State} {vs : List Byte} {i : Nat}

theorem LiteralPoint.limitReached (h : LiteralPoint s vs i t) : limitReached t = false := by
  rw [Machine.limitReached, h.noLimit, Bool.false_and]

/-- The pair at `CURSOR` is the next literal escape. -/
theorem LiteralPoint.fetchInstr (hs : LiteralStream s vs) (h : LiteralPoint s vs i t) (hi : i < vs.length) :
    fetchInstr t = .lit vs[i] := by
  obtain ⟨hlen, hpairs⟩ := hs
  obtain ⟨hop, hoperand⟩ := hpairs i hi
  have hbyte : ∀ a, streamByte t a = streamByte s a := fun a => by rw [streamByte, streamByte, h.stream]
  have hnext : t.cursor.toNat + 1 < t.streamLen.toNat := by rw [h.cursor, h.streamLen, hlen]; omega
  rw [Machine.fetchInstr, fetchNext_of_hasNextByte hnext, fetchOpcode, h.cursor, hbyte, hbyte, hop, hoperand,
    List.getD_eq_getElem vs 0#8 hi, decodeOp_lit]

/-- With bytes lacking and a pair left, the loop step decodes one more. -/
theorem LiteralPoint.succ (hs : LiteralStream s vs) (h : LiteralPoint s vs i t) (hi : i < vs.length)
    (hdecl : i < declaredLength s) : ∃ u, loopStep t = .next u ∧ LiteralPoint s vs (i + 1) u := by
  have ⟨hlen, _⟩ := hs
  have hshort : t.outLen.toNat < t.declLen.toNat := by rw [h.outLen, h.declLen]; exact hdecl
  have hnext : t.cursor.toNat + 1 < t.streamLen.toNat := by rw [h.cursor, h.streamLen, hlen]; omega
  have hstep : loopStep t = .next (committedState t (.literal vs[i]) 1 2 (.lit vs[i])) := by
    rw [loopStep_of_reachesInstruction ⟨hshort, by omega, h.limitReached⟩, h.fetchInstr hs hi, exec_lit,
      execLit_of_hasNextByte _ hshort hnext]
  obtain ⟨⟨hout, hcur, hcount, -⟩, -⟩ :=
    committedState_spec (s := t) (src := .literal vs[i]) (k := 1) (adv := 2) (i := .lit vs[i]) (by omega) (by omega)
      (by omega)
  refine ⟨_, hstep, h.busy, ?_, ?_, ?_, ?_, h.declLen, h.streamLen, h.stream, h.noLimit⟩
  · rw [hcur, h.cursor]; omega
  · rw [hout, h.outLen]
  · have hcount0 := h.insnCount
    have hbound := t.declLen.isLt
    rw [h.declLen] at hbound
    rw [hcount, BitVec.toNat_add, BitVec.toNat_ofNat]
    omega
  · rw [output_committedState (by omega) (by omega), h.output, List.take_succ_eq_append_getElem hi]
    rfl

/-- The reason a stream of n literal escapes ends with, when d bytes are declared. -/
def literalReason (n d : Nat) : Term := if d ≤ n then .lengthReached else .inputExhausted

/-- With every declared byte decoded or no pair left, the loop step terminates. -/
theorem LiteralPoint.last (hs : LiteralStream s vs) (h : LiteralPoint s vs (min vs.length (declaredLength s)) t) :
    loopStep t = .next (terminate (literalReason vs.length (declaredLength s)) t) := by
  obtain ⟨hlen, -⟩ := hs
  have hout := h.outLen
  have hdecl := h.declLen
  have hcursor := h.cursor
  rw [literalReason]
  split_ifs with hle
  · exact loopStep_of_lengthReached (by omega)
  · refine loopStep_of_inputExhausted (by omega) ?_
    rw [h.streamLen]
    omega

/-- The loop decodes the pairs one by one until the last it needs (spec R211). -/
theorem LiteralPoint.runLoop (hs : LiteralStream s vs) {n : Nat} (h : LiteralPoint s vs i t)
    (hi : i ≤ min vs.length (declaredLength s)) (hn : min vs.length (declaredLength s) < i + n) :
    ∃ u, LiteralPoint s vs (min vs.length (declaredLength s)) u ∧
      runLoop n t = .next (terminate (literalReason vs.length (declaredLength s)) u) := by
  induction n generalizing i t with
  | zero => omega
  | succ n ih =>
    by_cases hlast : i = min vs.length (declaredLength s)
    · subst hlast
      exact ⟨t, h, by rw [runLoop_of_busy n h.busy (h.last hs), runLoop_of_not_busy n (by simp)]⟩
    · obtain ⟨u, hstep, hu⟩ := h.succ hs (by omega) (by omega)
      rw [runLoop_of_busy n h.busy hstep]
      exact ih hu (by omega) (by omega)

end

/-- A soft parse without the limit enters the loop behind no pair. -/
theorem literalPoint_of_headerParse {w : Word} {s : State} (vs : List Byte) (hlen : 8 ≤ s.streamLen.toNat)
    (hsoft : w.getLsbD 1 = false) (hlimit : w.getLsbD 3 = false) :
    LiteralPoint s vs 0 (headerParse (startCommand w s)) := by
  rw [headerParse_soft hsoft hlen]
  exact ⟨rfl, rfl, rfl, rfl, rfl, toNat_append_byte _ _, rfl, rfl, hlimit⟩

/-- Settles O38: the run of the pairs, from behind no pair to the last one needed. -/
theorem literalStreamDecodesToItsOperands : Obligations.LiteralStreamDecodesToItsOperands := by
  intro w s vs hs hsoft hlimit
  have ⟨hlen, _⟩ := hs
  have hentry := literalPoint_of_headerParse (s := s) vs (by omega) hsoft hlimit
  obtain ⟨u, hu, hrun⟩ := hentry.runLoop hs (n := (headerParse (startCommand w s)).declLen.toNat + 1) (Nat.zero_le _)
    (by rw [hentry.declLen]; omega)
  have htake : vs.take (min vs.length (declaredLength s)) = vs.take (declaredLength s) := by
    rw [Nat.min_comm, ← List.take_eq_take_min]
  refine ⟨_, hrun, rfl, hu.output.trans htake, hu.outLen, hu.insnCount, hu.cursor,
    fun hle => ?reached, fun hlt => ?exhausted⟩
  case reached => exact if_pos hle
  case exhausted => exact if_neg (Nat.not_le.2 hlt)

end Sys2Proof.Machine
end

section
/-! PROOF. The cycle-level machine does what the loop step does: one equation for each clock, the clocks of each
instruction put together, and the clocks of a header parse (spec R200 to R205). -/

namespace Sys2Proof.Machine

/-! ## Clocks -/

/-- The state as a clock finds it, the record of the clock before gone (spec R260, R261). -/
def silent (s : State) : State := { s with trace := none }

@[simp] theorem insnRecord_silent (s : State) (k : Nat) (i : Instr) : insnRecord (silent s) k i = insnRecord s k i := by
  cases i <;> rfl

theorem cycles_add (a b : Nat) (m : Micro) : cycles (a + b) m = cycles b (cycles a m) := by
  induction a generalizing m with
  | zero => rw [Nat.zero_add]; rfl
  | succ a ih => rw [Nat.succ_add]; exact ih (cycle m)

/-- A clock and then n more. -/
theorem cycles_of_cycle {n : Nat} {m m' m'' : Micro} (h : cycle m = m') (hrest : cycles n m' = m'') :
    cycles (n + 1) m = m'' := by
  rw [cycles, h, hrest]

theorem cycles_one {m m' : Micro} (h : cycle m = m') : cycles 1 m = m' := h

/-- n clocks and then one more. -/
theorem cycles_then_cycle {n : Nat} {m m' m'' : Micro} (h : cycles n m = m') (hlast : cycle m' = m'') :
    cycles (n + 1) m = m'' := by
  rw [cycles_add, h]
  exact hlast

/-! ## One equation for each clock (spec R201) -/

section
variable {m : Micro}

theorem cycle_check (h : m.fsm = .check) : cycle m = cycleCheck { m with arch := silent m.arch } := by
  simp only [cycle, cycleQuiet, h, silent]

/-- A termination check that holds ends the decode in that clock (spec R181 to R183). -/
theorem cycle_check_terminated (h : m.fsm = .check) {r : Term} (hr : EndReason m.arch r) :
    cycle m = { m with arch := terminate r m.arch, fsm := .done } := by
  cases r with
  | none => exact hr.elim
  | error => exact hr.elim
  | lengthReached => exact (cycle_check h).trans (if_pos hr)
  | inputExhausted =>
    obtain ⟨hshort, hend⟩ := hr
    exact (cycle_check h).trans ((if_neg (Nat.not_le.2 hshort)).trans (if_pos hend))
  | limitReached =>
    obtain ⟨hshort, hmore, hlimit⟩ := hr
    exact (cycle_check h).trans ((if_neg (Nat.not_le.2 hshort)).trans ((if_neg (Nat.not_le.2 hmore)).trans
      (if_pos hlimit)))

theorem cycle_check_reaches (h : m.fsm = .check) (hreach : ReachesInstruction m.arch) :
    cycle m = { m with arch := silent m.arch, fsm := .fetchOp } := by
  obtain ⟨hshort, hmore, hnot⟩ := hreach
  exact (cycle_check h).trans ((if_neg (Nat.not_le.2 hshort)).trans ((if_neg (Nat.not_le.2 hmore)).trans
    (if_neg (by rw [Bool.not_eq_true]; exact hnot))))

theorem cycle_fetchOp (h : m.fsm = .fetchOp) : cycle m = cycleFetchOp { m with arch := silent m.arch } := by
  simp only [cycle, cycleQuiet, h, silent]

theorem cycle_fetchOp_lut (h : m.fsm = .fetchOp) (hlen : instrLength (fetchOpcode m.arch) = 1) :
    cycle m = { m with arch := silent m.arch, op := fetchOpcode m.arch, fsm := .execLut } :=
  (cycle_fetchOp h).trans (if_pos hlen)

theorem cycle_fetchOp_next (h : m.fsm = .fetchOp) (hlen : instrLength (fetchOpcode m.arch) = 2)
    (hnext : hasNextByte m.arch = true) :
    cycle m = { m with arch := silent m.arch, op := fetchOpcode m.arch, fsm := .fetchArg } := by
  have hnot : ¬ instrLength (fetchOpcode m.arch) = 1 := by omega
  exact (cycle_fetchOp h).trans ((if_neg hnot).trans (if_pos hnext))

theorem cycle_fetchOp_truncated (h : m.fsm = .fetchOp) (hlen : instrLength (fetchOpcode m.arch) = 2)
    (hlast : hasNextByte m.arch = false) :
    cycle m = { m with
      op := fetchOpcode m.arch
      arch := raiseError .truncatedInstruction (some ⟨fetchOpcode m.arch, 0#8, false⟩) m.arch
      fsm := .error } := by
  have hnot : ¬ instrLength (fetchOpcode m.arch) = 1 := by omega
  exact (cycle_fetchOp h).trans ((if_neg hnot).trans (if_neg (by rw [Bool.not_eq_true]; exact hlast)))

theorem cycle_fetchArg (h : m.fsm = .fetchArg) :
    cycle m = { m with
      arch := silent m.arch
      arg := streamByte m.arch (m.arch.cursor.toNat + 1)
      fsm := if m.op.toNat = 0x00 then .execLit else .agen } := by
  simp only [cycle, cycleQuiet, h]
  rfl

theorem cycle_execLut (h : m.fsm = .execLut) :
    cycle m = { m with
      arch := storeOut m.arch.outLen (Config.lutTable (Fin.ofNat 60 m.op.toNat)) (silent m.arch)
      adv := 1#2, k := 1#5, fsm := .commit } := by
  simp only [cycle, cycleQuiet, h, silent]

theorem cycle_execLit (h : m.fsm = .execLit) :
    cycle m = { m with
      arch := storeOut m.arch.outLen m.arg (silent m.arch), adv := 2#2, k := 1#5, fsm := .commit } := by
  simp only [cycle, cycleQuiet, h, silent]

theorem cycle_agen (h : m.fsm = .agen) : cycle m = cycleAgen { m with arch := silent m.arch } := by
  simp only [cycle, cycleQuiet, h, silent]

theorem cycle_agen_valid (h : m.fsm = .agen)
    (hvalid : spanValid m.arch (copyOffsetField m.op m.arg) (copyLengthField m.arg) = true) :
    cycle m = { m with
      arch := silent m.arch
      src := BitVec.ofNat 17 (copyStart m.arch (copyOffsetField m.op m.arg)).toNat
      dst := m.arch.outLen
      k := BitVec.ofNat 5 (copyCount m.arch (copyLengthField m.arg))
      cnt := BitVec.ofNat 5 (copyCount m.arch (copyLengthField m.arg))
      adv := 2#2
      fsm := .copy } :=
  (cycle_agen h).trans (if_pos hvalid)

theorem cycle_agen_invalid (h : m.fsm = .agen)
    (hinvalid : spanValid m.arch (copyOffsetField m.op m.arg) (copyLengthField m.arg) = false) :
    cycle m = { m with
      arch := raiseError .invalidBackReference (some ⟨m.op, m.arg, true⟩) m.arch, fsm := .error } :=
  (cycle_agen h).trans (if_neg (by rw [Bool.not_eq_true]; exact hinvalid))

theorem cycle_copy (h : m.fsm = .copy) : cycle m = cycleCopy { m with arch := silent m.arch } := by
  simp only [cycle, cycleQuiet, h, silent]

theorem cycle_copy_last (h : m.fsm = .copy) (hcnt : m.cnt.toNat = 0) :
    cycle m = { m with arch := silent m.arch, fsm := .commit } :=
  (cycle_copy h).trans (if_pos hcnt)

theorem cycle_copy_byte (h : m.fsm = .copy) (hcnt : m.cnt.toNat ≠ 0) :
    cycle m = { m with
      arch := storeOut m.dst (outByte m.arch m.src.toNat) (silent m.arch)
      src := m.src + 1#17, dst := m.dst + 1#17, cnt := m.cnt - 1#5 } :=
  (cycle_copy h).trans (if_neg hcnt)

/-- The commit clock ends as the instruction step's commit does, its record made of the latches (spec R97, R260). -/
theorem cycle_commit (h : m.fsm = .commit) :
    cycle m = { m with
      arch := commit m.adv.toNat (insnRecord m.arch m.k.toNat (decodeOp m.op m.arg)) m.arch, fsm := .check } := by
  have hclock : cycle m = cycleCommit { m with arch := silent m.arch } := by
    simp only [cycle, cycleQuiet, h, silent]
  rw [hclock, cycleCommit]
  simp only [insnRecord_silent]
  rfl

/-- With the fragment of the instruction in O and its measures in the latches, the commit clock gives the state that the
instruction step commits. -/
theorem cycle_commit_append {s : State} {src : AppendSource} {k adv : Nat} {i : Instr} (h : m.fsm = .commit)
    (harch : m.arch = { silent s with out := Memory.writeBytes s.out s.outLen.toNat (appendFragment s src k) })
    (hadv : m.adv.toNat = adv) (hk : m.k.toNat = k) (hi : decodeOp m.op m.arg = i) :
    cycle m = { m with arch := committedState s src k adv i, fsm := .check } := by
  rw [cycle_commit h, harch, hadv, hk, hi, committedState]
  cases i <;> rfl

end

/-! ## The COPY clocks (spec R239) -/

/-- The bytes of a span, the first one apart. -/
theorem appendFragment_span_succ (s : State) (a c : Nat) :
    appendFragment s (.span a) (c + 1) = outByte s a :: appendFragment s (.span (a + 1)) c := by
  rw [appendFragment, List.range_succ_eq_map, List.map_cons, List.map_map]
  refine congrArg _ (List.map_congr_left fun j _ => ?_)
  show outByte s (a + (j + 1)) = outByte s (a + 1 + j)
  congr 1
  omega

/-- A byte stored above a span is not seen in it. -/
theorem appendFragment_storeOut (s : State) (d : BitVec 17) (v : Byte) {a c : Nat} (h : a + c ≤ d.toNat) :
    appendFragment (storeOut d v s) (.span a) c = appendFragment s (.span a) c := by
  refine List.map_congr_left fun j hj => ?_
  have hj : j < c := List.mem_range.1 hj
  show outByte (storeOut d v s) (a + j) = outByte s (a + j)
  rw [outByte, outByte, storeOut_out, storeOut_outEpoch, lookup_write_other _ _ (by omega)]

/-- The COPY clocks store a span byte by byte, with one clock more to leave: since the span lies below the destination,
each byte read is the one from before the instruction (spec R99, R236, R239). -/
theorem cycles_copy {c : Nat} {m : Micro} (h : m.fsm = .copy) (hcnt : m.cnt.toNat = c)
    (hbelow : m.src.toNat + c ≤ m.dst.toNat) (hroom : m.dst.toNat + c < 2 ^ 17) : ∃ src dst cnt,
    cycles (c + 1) m = { m with
      arch := { silent m.arch with
        out := Memory.writeBytes m.arch.out m.dst.toNat (appendFragment m.arch (.span m.src.toNat) c) }
      src := src, dst := dst, cnt := cnt, fsm := .commit } := by
  induction c generalizing m with
  | zero => exact ⟨m.src, m.dst, m.cnt, cycle_copy_last h hcnt⟩
  | succ c ih =>
    have hclock := cycle_copy_byte h (by omega)
    have hsrc : (m.src + 1#17).toNat = m.src.toNat + 1 := by
      rw [BitVec.toNat_add, BitVec.toNat_ofNat]; omega
    have hdst : (m.dst + 1#17).toNat = m.dst.toNat + 1 := by
      rw [BitVec.toNat_add, BitVec.toNat_ofNat]; omega
    have hcnt' : (m.cnt - 1#5).toNat = c := by
      rw [BitVec.toNat_sub, BitVec.toNat_ofNat]; omega
    obtain ⟨src, dst, cnt, hrest⟩ := ih (m := { m with
      arch := storeOut m.dst (outByte m.arch m.src.toNat) (silent m.arch)
      src := m.src + 1#17, dst := m.dst + 1#17, cnt := m.cnt - 1#5 }) h hcnt'
      (show (m.src + 1#17).toNat + c ≤ (m.dst + 1#17).toNat by omega)
      (show (m.dst + 1#17).toNat + c < 2 ^ 17 by omega)
    refine ⟨src, dst, cnt, (cycles_of_cycle hclock hrest).trans ?_⟩
    have hfrag : appendFragment (storeOut m.dst (outByte m.arch m.src.toNat) (silent m.arch))
          (.span (m.src.toNat + 1)) c =
        appendFragment m.arch (.span (m.src.toNat + 1)) c :=
      appendFragment_storeOut (silent m.arch) _ _ (by omega)
    simp only [hsrc, hdst, hfrag, appendFragment_span_succ]
    rfl

/-! ## The loop step, instruction by instruction (spec R203, R204) -/

/-- The cycle-level machine shows the state of its FSM in `STATUS`, and is at CHECK while BUSY: where a loop step begins
and where it ends. -/
structure Coupled (m : Micro) : Prop where
  engineState : m.fsm.engineState = m.arch.status.state
  check : m.arch.status.state = .busy → m.fsm = .check

theorem coupled_of_halted {m : Micro} (h : m.fsm.engineState = m.arch.status.state)
    (hnot : m.arch.status.state ≠ .busy) : Coupled m :=
  ⟨h, fun hbusy => absurd hbusy hnot⟩

theorem coupled_of_check {m : Micro} (h : m.fsm = .check) (hbusy : m.arch.status.state = .busy) : Coupled m :=
  ⟨by rw [h, hbusy]; rfl, fun _ => h⟩

/-- k clocks from CHECK reach the outcome of the loop step. -/
def RefinesLoopStep (k : Nat) (m : Micro) : Prop :=
  loopStep m.arch = .next (cycles k m).arch ∧ Coupled (cycles k m)

theorem loopCycles_of_reaches {s : State} (h : ReachesInstruction s) : loopCycles s = instrCycles s (fetchInstr s) := by
  obtain ⟨hshort, hmore, hnot⟩ := h
  rw [loopCycles, if_neg (Nat.not_le.2 hshort), if_neg (Nat.not_le.2 hmore), hnot]
  rfl

theorem loopCycles_of_endReason {s : State} {r : Term} (hr : EndReason s r) : loopCycles s = 1 := by
  cases r with
  | none => exact hr.elim
  | error => exact hr.elim
  | lengthReached => exact if_pos hr
  | inputExhausted =>
    obtain ⟨hshort, hend⟩ := hr
    exact (if_neg (Nat.not_le.2 hshort)).trans (if_pos hend)
  | limitReached =>
    obtain ⟨hshort, hmore, hlimit⟩ := hr
    exact (if_neg (Nat.not_le.2 hshort)).trans ((if_neg (Nat.not_le.2 hmore)).trans (if_pos hlimit))

theorem loopStep_of_endReason {s : State} {r : Term} (hr : EndReason s r) : loopStep s = .next (terminate r s) := by
  cases r with
  | none => exact hr.elim
  | error => exact hr.elim
  | lengthReached => exact loopStep_of_lengthReached hr
  | inputExhausted =>
    obtain ⟨hshort, hend⟩ := hr
    exact loopStep_of_inputExhausted hshort hend
  | limitReached =>
    obtain ⟨hshort, hmore, hlimit⟩ := hr
    exact loopStep_of_limitReached hshort hmore hlimit

section
variable {m : Micro}

theorem refines_terminated (h : m.fsm = .check) {r : Term} (hr : EndReason m.arch r) : RefinesLoopStep 1 m := by
  have hclocks : cycles 1 m = { m with arch := terminate r m.arch, fsm := .done } := cycle_check_terminated h hr
  rw [RefinesLoopStep, hclocks]
  exact ⟨loopStep_of_endReason hr, coupled_of_halted rfl (by simp)⟩

/-- Where the clocks have committed, they refine an instruction that commits. -/
theorem refines_committed {n : Nat} {m' : Micro} {src : AppendSource} {k adv : Nat} {i : Instr}
    (hbusy : m.arch.status.state = .busy) (hloop : loopStep m.arch = .next (committedState m.arch src k adv i))
    (hclocks : cycles n m = m') (harch : m'.arch = committedState m.arch src k adv i) (hfsm : m'.fsm = .check) :
    RefinesLoopStep n m := by
  rw [RefinesLoopStep, hclocks, harch]
  exact ⟨hloop, coupled_of_check hfsm (by rw [harch]; exact hbusy)⟩

/-- Where the clocks have halted on an error, they refine an instruction that halts on it. -/
theorem refines_halted {n : Nat} {m' : Micro} {e : Err} {f : FaultInfo}
    (hloop : loopStep m.arch = .next (raiseError e (some f) m.arch))
    (hclocks : cycles n m = m') (harch : m'.arch = raiseError e (some f) m.arch) (hfsm : m'.fsm = .error) :
    RefinesLoopStep n m := by
  rw [RefinesLoopStep, hclocks, harch]
  exact ⟨hloop, coupled_of_halted (by rw [harch, hfsm]; rfl) (by rw [harch]; simp)⟩

/-- CHECK, FETCH_OP, EXEC_LUT, COMMIT. -/
theorem refines_lut (h : m.fsm = .check) (hbusy : m.arch.status.state = .busy) (hreach : ReachesInstruction m.arch)
    (hlen : instrLength (fetchOpcode m.arch) = 1) : RefinesLoopStep 4 m := by
  have ⟨hshort, _, _⟩ := hreach
  obtain ⟨hlow, hhigh⟩ := (instrLength_eq_one_iff _).1 hlen
  have hdecode := decodeOp_lut hlow hhigh
  have hindex : Fin.ofNat 60 (fetchOpcode m.arch).toNat = ⟨(fetchOpcode m.arch).toNat, hhigh⟩ :=
    Fin.ext (Nat.mod_eq_of_lt hhigh)
  have hstored : cycles 3 m = { m with
      arch := storeOut m.arch.outLen (Config.lutTable (Fin.ofNat 60 (fetchOpcode m.arch).toNat)) (silent m.arch)
      op := fetchOpcode m.arch, adv := 1#2, k := 1#5, fsm := .commit } :=
    cycles_then_cycle (cycles_then_cycle (cycles_one (cycle_check_reaches h hreach)) (cycle_fetchOp_lut rfl hlen))
      (cycle_execLut rfl)
  rw [hindex] at hstored
  refine refines_committed hbusy ?loop (cycles_then_cycle hstored
    (cycle_commit_append (src := .table ⟨(fetchOpcode m.arch).toNat, hhigh⟩) rfl rfl rfl rfl (hdecode _))) rfl rfl
  case loop =>
    rw [loopStep_of_reachesInstruction hreach, fetchInstr, hdecode, exec_lut, execLut_of_outLen_lt _ hshort]
    rfl

/-- CHECK, FETCH_OP: the next byte is missing. -/
theorem refines_truncated (h : m.fsm = .check) (hreach : ReachesInstruction m.arch)
    (hlen : instrLength (fetchOpcode m.arch) = 2) (hlast : hasNextByte m.arch = false) : RefinesLoopStep 2 m := by
  have hend : m.arch.streamLen.toNat ≤ m.arch.cursor.toNat + 1 := by
    rw [← Bool.not_eq_true, hasNextByte_iff] at hlast; omega
  have hfault : faultNoNext (fetchInstr m.arch) = ⟨fetchOpcode m.arch, 0#8, false⟩ := by
    rw [faultNoNext, opcodeByte_fetchInstr]
  have hexec : exec (fetchInstr m.arch) m.arch =
      .next (raiseError .truncatedInstruction (some (faultNoNext (fetchInstr m.arch))) m.arch) := by
    obtain hlit | hcopy := (instrLength_eq_two_iff _).1 hlen
    · rw [fetchInstr, hlit, decodeOp_lit, exec_lit, execLit_of_noNextByte _ hend, faultNoNext_lit]
    · rw [fetchInstr, decodeOp_copy hcopy, exec_copy, execCopy_of_noNextByte _ _ hend]
  rw [hfault] at hexec
  exact refines_halted ((loopStep_of_reachesInstruction hreach).trans hexec)
    (cycles_then_cycle (cycles_one (cycle_check_reaches h hreach)) (cycle_fetchOp_truncated rfl hlen hlast)) rfl rfl

/-- CHECK, FETCH_OP, FETCH_ARG: both bytes are in the latches. -/
theorem cycles_fetchArg (h : m.fsm = .check) (hreach : ReachesInstruction m.arch)
    (hlen : instrLength (fetchOpcode m.arch) = 2) (hnext : hasNextByte m.arch = true) :
    cycles 3 m = { m with
      arch := silent m.arch, op := fetchOpcode m.arch, arg := fetchNext m.arch
      fsm := if (fetchOpcode m.arch).toNat = 0x00 then .execLit else .agen } := by
  rw [fetchNext_of_hasNextByte ((hasNextByte_iff _).1 hnext)]
  exact cycles_then_cycle (cycles_then_cycle (cycles_one (cycle_check_reaches h hreach))
    (cycle_fetchOp_next rfl hlen hnext)) (cycle_fetchArg rfl)

/-- CHECK, FETCH_OP, FETCH_ARG, EXEC_LIT, COMMIT. -/
theorem refines_lit (h : m.fsm = .check) (hbusy : m.arch.status.state = .busy) (hreach : ReachesInstruction m.arch)
    (hlit : fetchOpcode m.arch = 0x00#8) (hnext : hasNextByte m.arch = true) : RefinesLoopStep 5 m := by
  have ⟨hshort, _, _⟩ := hreach
  have hmore := (hasNextByte_iff _).1 hnext
  have hfetched := cycles_fetchArg h hreach (by rw [hlit]; rfl) hnext
  rw [hlit] at hfetched
  have hstored : cycles 4 m = { m with
      arch := storeOut m.arch.outLen (fetchNext m.arch) (silent m.arch)
      op := 0x00#8, arg := fetchNext m.arch, adv := 2#2, k := 1#5, fsm := .commit } :=
    cycles_then_cycle hfetched (cycle_execLit rfl)
  refine refines_committed hbusy ?loop
    (cycles_then_cycle hstored (cycle_commit_append (src := .literal (fetchNext m.arch)) rfl rfl rfl rfl rfl)) rfl rfl
  case loop =>
    rw [loopStep_of_reachesInstruction hreach, fetchInstr, hlit, decodeOp_lit, exec_lit,
      execLit_of_hasNextByte _ hshort hmore]
    rfl

section
variable (h : m.fsm = .check) (hreach : ReachesInstruction m.arch) (hcopy : 0x3C ≤ (fetchOpcode m.arch).toNat)
  (hnext : hasNextByte m.arch = true)

include h hreach hcopy hnext

/-- CHECK, FETCH_OP, FETCH_ARG on the way to AGEN. -/
theorem cycles_copyArg : cycles 3 m = { m with
    arch := silent m.arch, op := fetchOpcode m.arch, arg := fetchNext m.arch, fsm := .agen } := by
  have hfetched := cycles_fetchArg h hreach ((instrLength_eq_two_iff _).2 (.inr hcopy)) hnext
  rwa [if_neg (by omega)] at hfetched

/-- CHECK, FETCH_OP, FETCH_ARG, AGEN: the span is not valid. -/
theorem refines_copy_invalid
    (hinvalid : spanValid m.arch (copyOffsetField (fetchOpcode m.arch) (fetchNext m.arch))
      (copyLengthField (fetchNext m.arch)) = false) : RefinesLoopStep 4 m := by
  have hmore := (hasNextByte_iff _).1 hnext
  have hspan := mt (spanValid_iff _ _ _).2 (Bool.not_eq_true _ ▸ hinvalid)
  refine refines_halted ?loop
    (cycles_then_cycle (cycles_copyArg h hreach hcopy hnext) (cycle_agen_invalid rfl hinvalid)) rfl rfl
  case loop =>
    rw [loopStep_of_reachesInstruction hreach, fetchInstr, decodeOp_copy hcopy, exec_copy,
      execCopy_of_invalid hmore hspan, faultWithNext, opcodeByte_copyFields hcopy, nextByte_copyFields hcopy]

/-- The latches AGEN fills for a valid span: where it starts, where it goes and how many bytes it has (spec R238). -/
theorem cycles_agen {start k : Nat}
    (hvalid : spanValid m.arch (copyOffsetField (fetchOpcode m.arch) (fetchNext m.arch))
      (copyLengthField (fetchNext m.arch)) = true)
    (hstart : (copyStart m.arch (copyOffsetField (fetchOpcode m.arch) (fetchNext m.arch))).toNat = start)
    (hk : copyCount m.arch (copyLengthField (fetchNext m.arch)) = k) :
    cycles 4 m = { m with
      arch := silent m.arch, op := fetchOpcode m.arch, arg := fetchNext m.arch
      src := BitVec.ofNat 17 start, dst := m.arch.outLen, k := BitVec.ofNat 5 k, cnt := BitVec.ofNat 5 k
      adv := 2#2, fsm := .copy } := by
  subst hstart hk
  exact cycles_then_cycle (cycles_copyArg h hreach hcopy hnext) (cycle_agen_valid rfl hvalid)

/-- CHECK, FETCH_OP, FETCH_ARG, AGEN and the COPY clocks: the span is in O and its measures are in the latches. -/
theorem cycles_copyStored {start k : Nat}
    (hvalid : spanValid m.arch (copyOffsetField (fetchOpcode m.arch) (fetchNext m.arch))
      (copyLengthField (fetchNext m.arch)) = true)
    (hstart : (copyStart m.arch (copyOffsetField (fetchOpcode m.arch) (fetchNext m.arch))).toNat = start)
    (hk : copyCount m.arch (copyLengthField (fetchNext m.arch)) = k)
    (hbelow : start + k ≤ m.arch.outLen.toNat) (hroom : m.arch.outLen.toNat + k < 2 ^ 17) : ∃ src dst cnt,
    cycles (4 + (k + 1)) m = { m with
      arch := { silent m.arch with
        out := Memory.writeBytes m.arch.out m.arch.outLen.toNat (appendFragment m.arch (.span start) k) }
      op := fetchOpcode m.arch, arg := fetchNext m.arch, src := src, dst := dst, cnt := cnt
      adv := 2#2, k := BitVec.ofNat 5 k, fsm := .commit } := by
  have hk32 : k < 32 := hk ▸ copyCount_lt m.arch _
  have hkBits : (BitVec.ofNat 5 k).toNat = k := Nat.mod_eq_of_lt hk32
  have hsrcBits : (BitVec.ofNat 17 start).toNat = start := Nat.mod_eq_of_lt (by omega)
  obtain ⟨src, dst, cnt, hcopied⟩ := cycles_copy (c := k) (m := { m with
    arch := silent m.arch, op := fetchOpcode m.arch, arg := fetchNext m.arch
    src := BitVec.ofNat 17 start, dst := m.arch.outLen, k := BitVec.ofNat 5 k, cnt := BitVec.ofNat 5 k
    adv := 2#2, fsm := .copy }) rfl hkBits (by simpa only [hsrcBits] using hbelow) hroom
  rw [cycles_add, cycles_agen h hreach hcopy hnext hvalid hstart hk, hcopied]
  simp only [hsrcBits]
  exact ⟨src, dst, cnt, rfl⟩

/-- The clocks of `cycles_copyStored` and COMMIT. -/
theorem refines_copy_valid (hbusy : m.arch.status.state = .busy)
    (hvalid : spanValid m.arch (copyOffsetField (fetchOpcode m.arch) (fetchNext m.arch))
      (copyLengthField (fetchNext m.arch)) = true) :
    RefinesLoopStep (6 + copyCount m.arch (copyLengthField (fetchNext m.arch))) m := by
  have ⟨hshort, _, _⟩ := hreach
  have hspan := (spanValid_iff _ _ _).1 hvalid
  have hstart := copyStart_toNat hvalid
  have hlength := copyLengthField_toNat (fetchNext m.arch)
  have hcount := copyCount_le m.arch (copyLengthField (fetchNext m.arch))
  have hkBits : (BitVec.ofNat 5 (copyCount m.arch (copyLengthField (fetchNext m.arch)))).toNat =
      copyCount m.arch (copyLengthField (fetchNext m.arch)) := Nat.mod_eq_of_lt (copyCount_lt _ _)
  have hdecode := decodeOp_copy hcopy (fetchNext m.arch)
  obtain ⟨src, dst, cnt, hstored⟩ :=
    cycles_copyStored h hreach hcopy hnext hvalid hstart rfl (by omega) (by omega)
  rw [show ∀ k, 6 + k = 4 + (k + 1) + 1 by omega]
  refine refines_committed hbusy ?loop
    (cycles_then_cycle hstored (cycle_commit_append rfl rfl rfl hkBits hdecode)) rfl rfl
  case loop =>
    rw [loopStep_of_reachesInstruction hreach, fetchInstr, hdecode, exec_copy,
      execCopy_of_valid (by omega) hshort ((hasNextByte_iff _).1 hnext) hspan]
    rfl

end

/-- The clocks of R204 for the instruction at `CURSOR`. -/
theorem refines_instr (h : m.fsm = .check) (hbusy : m.arch.status.state = .busy) (hreach : ReachesInstruction m.arch) :
    RefinesLoopStep (instrCycles m.arch (fetchInstr m.arch)) m := by
  obtain hlit | ⟨hlow, hhigh⟩ | hcopy := opcodeByte_ranges (fetchOpcode m.arch)
  · rw [fetchInstr, hlit, decodeOp_lit, instrCycles]
    split_ifs with hnext
    · exact refines_lit h hbusy hreach hlit hnext
    · exact refines_truncated h hreach (by rw [hlit]; rfl) (Bool.eq_false_of_not_eq_true hnext)
  · rw [fetchInstr, decodeOp_lut hlow hhigh, instrCycles]
    exact refines_lut h hbusy hreach ((instrLength_eq_one_iff _).2 ⟨hlow, hhigh⟩)
  · rw [fetchInstr, decodeOp_copy hcopy, instrCycles]
    split_ifs with hnext hvalid
    · exact refines_copy_valid h hreach hcopy hnext hbusy hvalid
    · exact refines_copy_invalid h hreach hcopy hnext (Bool.eq_false_of_not_eq_true hvalid)
    · exact refines_truncated h hreach ((instrLength_eq_two_iff _).2 (.inr hcopy)) (Bool.eq_false_of_not_eq_true hnext)

/-- The clocks of R204 for a loop step. -/
theorem refines_loopStep (h : m.fsm = .check) (hbusy : m.arch.status.state = .busy) :
    RefinesLoopStep (loopCycles m.arch) m := by
  obtain ⟨t, -, hmove⟩ := loopStep_answers m.arch
  cases hmove with
  | terminated r hr =>
    rw [loopCycles_of_endReason hr]
    exact refines_terminated h hr
  | ran t hreach _ =>
    rw [loopCycles_of_reaches hreach]
    exact refines_instr h hbusy hreach

end

/-- Settles O53: the clocks of each way a loop step goes, put together from the equations of the single clocks. -/
theorem cycleMachineRefinesTheLoopStep : Obligations.CycleMachineRefinesTheLoopStep := by
  intro m h hloop
  obtain ⟨hstep, hcoupled⟩ := refines_loopStep h hloop.1
  exact ⟨_, rfl, hstep, hcoupled.engineState, hcoupled.check⟩

end Sys2Proof.Machine
end

section
/-! PROOF. A whole decode on the cycle-level machine: the clocks of the header parse, then the loop steps until the
decode ends (spec R193, R201, R203). -/

namespace Sys2Proof.Machine

/-! ## The HDR clocks (spec R201) -/

section
variable {m : Micro}

theorem cycle_hdr (h : m.fsm = .hdr) : cycle m = cycleHdr { m with arch := silent m.arch } := by
  simp only [cycle, cycleQuiet, h, silent]

theorem cycle_hdr_short (h : m.fsm = .hdr) (hshort : m.arch.streamLen.toNat < 8) :
    cycle m = { m with arch := headerParse m.arch, fsm := .error } := by
  rw [headerParse_of_short hshort]
  exact (cycle_hdr h).trans (if_pos hshort)

theorem cycle_hdr_byte (h : m.fsm = .hdr) (hlong : 8 ≤ m.arch.streamLen.toNat) (hhc : m.hc.toNat < 7) :
    cycle m = { m with
      arch := silent m.arch, latch := m.latch ++ [streamByte m.arch m.hc.toNat], hc := m.hc + 1#3 } :=
  (cycle_hdr h).trans ((if_neg (Nat.not_lt.2 hlong)).trans (if_pos hhc))

/-- With the first seven bytes in the latch the eighth clock ends the parse. -/
theorem cycle_hdr_last (h : m.fsm = .hdr) (hlong : 8 ≤ m.arch.streamLen.toNat) (hhc : m.hc.toNat = 7)
    (hlatch : m.latch = (List.range 7).map (streamByte m.arch)) :
    cycle m = { m with
      arch := headerParse m.arch, fsm := if (headerParse m.arch).busy then .check else .error } := by
  have hnot : ¬ m.hc.toNat < 7 := by omega
  rw [headerParse_of_long hlong]
  refine (cycle_hdr h).trans ((if_neg (Nat.not_lt.2 hlong)).trans ((if_neg hnot).trans ?_))
  simp only [hlatch]
  rfl

/-- The first seven HDR clocks fill the latch. -/
theorem cycles_hdr {j : Nat} (h : m.fsm = .hdr) (hlong : 8 ≤ m.arch.streamLen.toNat) (hquiet : silent m.arch = m.arch)
    (hhc : m.hc = 0#3) (hlatch : m.latch = []) (hj : j ≤ 7) :
    cycles j m = { m with hc := BitVec.ofNat 3 j, latch := (List.range j).map (streamByte m.arch) } := by
  induction j with
  | zero =>
    show m = _
    rw [List.range_zero, List.map_nil, ← hhc, ← hlatch]
  | succ j ih =>
    have hcount : (BitVec.ofNat 3 j).toNat = j := by rw [BitVec.toNat_ofNat]; omega
    have hclock := cycles_then_cycle (ih (by omega)) (cycle_hdr_byte h hlong (by rw [hcount]; omega))
    simp only [hcount, hquiet] at hclock
    rw [hclock, List.range_succ, List.map_append, List.map_singleton, BitVec.ofNat_add]

/-- The header parse on the cycle-level machine (spec R204). -/
theorem cycles_headerParse (h : m.fsm = .hdr) (hquiet : silent m.arch = m.arch) (hhc : m.hc = 0#3)
    (hlatch : m.latch = []) (hbusy : m.arch.status.state = .busy) (hclear : ResultsClear m.arch) :
    (cycles (headerCycles m.arch) m).arch = headerParse m.arch ∧ Coupled (cycles (headerCycles m.arch) m) := by
  by_cases hshort : m.arch.streamLen.toNat < 8
  · have hclocks : cycles (headerCycles m.arch) m = { m with arch := headerParse m.arch, fsm := .error } := by
      rw [headerCycles, if_pos hshort]
      exact cycle_hdr_short h hshort
    have hstate : (headerParse m.arch).status.state = .error := by rw [headerParse_of_short hshort]; rfl
    rw [hclocks]
    exact ⟨rfl, coupled_of_halted hstate.symm (by rw [hstate]; decide)⟩
  · have hlong : 8 ≤ m.arch.streamLen.toNat := Nat.le_of_not_lt hshort
    have hclocks : cycles (headerCycles m.arch) m = { m with
        arch := headerParse m.arch, hc := BitVec.ofNat 3 7, latch := (List.range 7).map (streamByte m.arch)
        fsm := if (headerParse m.arch).busy then .check else .error } := by
      rw [headerCycles, if_neg hshort]
      exact cycles_then_cycle (cycles_hdr h hlong hquiet hhc hlatch (le_refl 7)) (cycle_hdr_last h hlong rfl rfl)
    rw [hclocks]
    refine ⟨rfl, ?_⟩
    obtain ⟨hstate, -⟩ | ⟨hstate, -⟩ := headerParse_bounds hbusy hclear
    · have hnot : (headerParse m.arch).status.state ≠ .busy := by rw [hstate]; decide
      refine coupled_of_halted ?_ hnot
      show (if (headerParse m.arch).busy then MicroState.check else .error).engineState = _
      rw [if_neg (mt (busy_iff _).1 hnot), hstate]
      rfl
    · exact coupled_of_check (if_pos ((busy_iff _).2 hstate)) hstate

end

/-! ## The loop (spec R203) -/

/-- The clocks of the loop reach what the loop reaches as a function. -/
theorem cycles_runLoop (n : Nat) {m : Micro} {t : State} (hcoupled : Coupled m)
    (hrun : runLoop n m.arch = .next t) : ∃ c, (cycles c m).arch = t ∧ Coupled (cycles c m) := by
  induction n generalizing m with
  | zero =>
    cases hrun
    exact ⟨0, rfl, hcoupled⟩
  | succ n ih =>
    by_cases hbusy : m.arch.status.state = .busy
    · obtain ⟨hstep, hcoupled'⟩ := refines_loopStep (hcoupled.check hbusy) hbusy
      rw [runLoop_of_busy n hbusy hstep] at hrun
      obtain ⟨c, harch, hends⟩ := ih hcoupled' hrun
      rw [← cycles_add] at harch hends
      exact ⟨_, harch, hends⟩
    · rw [runLoop_of_not_busy _ hbusy] at hrun
      cases hrun
      exact ⟨0, rfl, hcoupled⟩

/-- DONE and ERROR are the states of the machine that `STATUS` shows as such (spec R200). -/
theorem Coupled.halted {m : Micro} (h : Coupled m) (hdone : m.arch.done = true) : m.fsm = .done ∨ m.fsm = .error := by
  have hstate := (done_iff _).1 hdone
  rw [← h.engineState] at hstate
  cases hfsm : m.fsm
  case done => exact .inl rfl
  case error => exact .inr rfl
  all_goals
    rw [hfsm] at hstate
    obtain hstate | hstate := hstate <;> cases hstate

/-- Settles O54: START clears the header latch, the HDR clocks end at the entry of the loop or in an error, and the
loop's clocks end where the decode does. -/
theorem cycleMachineRefinesTheDecode : Obligations.CycleMachineRefinesTheDecode := by
  intro w m hidle
  have hstart : cycleStart w m = { m with arch := startCommand w m.arch, fsm := .hdr, hc := 0#3, latch := [] } :=
    if_neg (mt (busy_iff _).1 hidle)
  obtain ⟨t, hrun, hended, -⟩ := decodeRun_ends w m.arch
  have hparsed : ∃ c, (cycles c (cycleStart w m)).arch = headerParse (startCommand w m.arch) ∧
      Coupled (cycles c (cycleStart w m)) := by
    rw [hstart]
    exact ⟨_, cycles_headerParse rfl rfl rfl rfl rfl (startCommand_clear w m.arch)⟩
  obtain ⟨c₁, harch, hcoupled⟩ := hparsed
  rw [decodeRun_eq, ← harch] at hrun
  obtain ⟨c₂, hreached, hends⟩ := cycles_runLoop _ hcoupled hrun
  rw [← cycles_add] at hreached hends
  refine ⟨_, _, rfl, ?_, hends.halted (by rw [hreached]; exact hended.done)⟩
  rw [hreached, decodeRun_eq, ← harch, hrun]

end Sys2Proof.Machine
end
